-- ==== Sys2Proof/Word.lean ====
section
/-! DEFINITION. The words of the engine: bytes, 256-entry tables and the 64-bit descriptor
(`00_scope.md` R7, R10; `30_encoding.md` R61). Every value is unsigned and wraps at its width. -/

namespace Sys2Proof

/-- A `u8` (R10): a table entry, a table index, a cursor, or one byte of a stream. -/
abbrev Byte := BitVec 8

/-- A table of 256 entries of 8 bits (R7 `TABLE_SIZE`, `ENTRY_WIDTH`): the shape of S (R22),
of T (R31) and of KBUF (R32). -/
abbrev Table := Vector Byte 256

/-- The 64-bit command descriptor `desc` (R61). -/
abbrev Descriptor := BitVec 64

end Sys2Proof
end

