-- ==== Sys2Proof/Config.lean ====
section
/-! DEFINITION. What is fixed for the engine (`00_scope.md` R7, R8), and the free values: constants
without a body that stand for the contents the spec leaves undefined. -/

namespace Sys2Proof

/-- `KEY_MIN` = 5 bytes (R7). -/
def Config.keyMin : Nat := 5

/-- `KEY_MAX` = 256 bytes (R7). -/
def Config.keyMax : Nat := 256

/-- `DESC_BYTES` = 8 bytes (R8). -/
def Config.descBytes : Nat := 8

/-! The working registers hold no defined value once the command that used them has ended (R30, R31,
R32; `93_implementation_defined.md` U2, U3). Each of them then takes one of the FREE VALUES below,
applied to the draw number of the command (`State.draws`). Log entry 3. -/

/-- Free value: what `ki` holds after the `n`-th command that ran a KSA (R30, U3). -/
opaque Config.deadKi : Nat → BitVec 9

/-- Free value: what `kj` holds after the `n`-th command that ran a KSA (R30, U3). -/
opaque Config.deadKj : Nat → Byte

/-- Free value: what KBUF holds after the `n`-th command that ran a KSA (R32, U3): the key is not
retained. -/
opaque Config.deadKbuf : Nat → Table

/-- Free value: what KL holds after the `n`-th command that ran a KSA (R32, U3). -/
opaque Config.deadKl : Nat → BitVec 9

/-- Free value: what T holds after an APPLY_STATIC that was the `n`-th such command (R31, U2). -/
opaque Config.deadT : Nat → Table

/-- Free value: what `ti` holds after an APPLY_STATIC that was the `n`-th such command (R31, U2). -/
opaque Config.deadTi : Nat → Byte

/-- Free value: what `tj` holds after an APPLY_STATIC that was the `n`-th such command (R31, U2). -/
opaque Config.deadTj : Nat → Byte

end Sys2Proof
end

