-- ==== Sys2Proof/Syntax.lean ====
section
/-! DEFINITION. The command set: one constructor per row of `opcode_table.json`. A value is the decoded
command record of `30_encoding.md` R76: the counts of the descriptor with the two payloads. Fields
that a legal descriptor fixes to 0 (R64) are not repeated. -/

namespace Sys2Proof

/-- A legal command with its payloads (R63, R64, R76). -/
inductive Instr where
  /-- `INIT key=<KLEN bytes>` (R90): schedule a new session. -/
  | init (klen : BitVec 9) (key : List Byte)
  /-- `APPLY data=<DLEN bytes>` (R110): XOR the session's next keystream bytes into the data. -/
  | apply (dlen : BitVec 32) (data : List Byte)
  /-- `APPLY_STATIC key=<KLEN bytes> data=<DLEN bytes>` (R131): transform the data with a fresh
  keystream, leaving the session alone. -/
  | applyStatic (klen : BitVec 9) (dlen : BitVec 32) (key data : List Byte)
  deriving DecidableEq, Repr

end Sys2Proof
end

