-- ==== Sys2Proof/WellFormed.lean ====
section
/-! DEFINITION. The command records a byte stream can produce (`30_encoding.md` R76): each payload has
exactly the length its count field says. Any other record has no hardware meaning. -/

namespace Sys2Proof

/-- R76: the payload lengths agree with KLEN and DLEN. -/
def Instr.wellFormed : Instr → Bool
  | .init klen key => key.length == klen.toNat
  | .apply dlen data => data.length == dlen.toNat
  | .applyStatic klen dlen key data => key.length == klen.toNat && data.length == dlen.toNat

end Sys2Proof
end

