-- ==== Sys2Proof/Decode.lean ====
section
/-! DEFINITION. The descriptor's fields, the decoder and the encoder (`30_encoding.md` R60 to R67, R71,
R75; byte order `20_memory.md` R47). The decoder is total: what is no legal command is rejected by
name. -/

namespace Sys2Proof

/-! ### Fields of the descriptor (R61, R62) -/

/-- `OP = desc[3:0]`. -/
def Descriptor.op (d : Descriptor) : BitVec 4 := d.extractLsb' 0 4

/-- `RSV0 = desc[7:4]`. -/
def Descriptor.rsv0 (d : Descriptor) : BitVec 4 := d.extractLsb' 4 4

/-- `KLEN = desc[16:8]`, an unsigned byte count. -/
def Descriptor.klen (d : Descriptor) : BitVec 9 := d.extractLsb' 8 9

/-- `RSV1 = desc[31:17]`. -/
def Descriptor.rsv1 (d : Descriptor) : BitVec 15 := d.extractLsb' 17 15

/-- `DLEN = desc[63:32]`, an unsigned byte count. -/
def Descriptor.dlen (d : Descriptor) : BitVec 32 := d.extractLsb' 32 32

/-- The descriptor with the given fields (R61), DLEN in the most significant bits. -/
def Descriptor.build (dlen : BitVec 32) (rsv1 : BitVec 15) (klen : BitVec 9) (rsv0 op : BitVec 4) :
    Descriptor :=
  (dlen ++ rsv1 ++ klen ++ rsv0 ++ op).cast rfl

/-! ### Byte order (R47) -/

/-- The descriptor carried by eight stream bytes: stream byte k carries bits `[8k+7:8k]`. -/
def Descriptor.ofBytes : List Byte → Descriptor
  | [] => 0
  | b :: bs => b.setWidth 64 ||| (Descriptor.ofBytes bs <<< 8)

/-- The eight stream bytes of a descriptor, byte 0 first. -/
def Descriptor.toBytes (d : Descriptor) : List Byte :=
  (List.range Config.descBytes).map fun k => d.extractLsb' (8 * k) 8

/-! ### Decoding -/

/-- Why a descriptor, or a byte string, is no legal command. -/
inductive DecodeError where
  /-- Fewer bytes than `8 + KLEN + DLEN` (R60): the command is not whole. -/
  | truncated
  /-- A payload that the command's zero count leaves no room for (R76): no byte stream produces it. -/
  | payloadLength
  /-- `RSV0 ≠ 0` (R65 item 2). -/
  | rsv0NotZero
  /-- `RSV1 ≠ 0` (R65 item 3). -/
  | rsv1NotZero
  /-- INIT with `DLEN ≠ 0` (R65 item 4). -/
  | initWithData
  /-- APPLY with `KLEN ≠ 0` (R65 item 5). -/
  | applyWithKey
  /-- `OP` is 0x0 or in 0x4..0xF (R65 item 1). -/
  | reservedOpcode
  deriving DecidableEq, Repr

/-- The decoder (R66) on a descriptor and the two payloads the framing took for it (R68). -/
def decodeCommand (d : Descriptor) (key data : List Byte) : Except DecodeError Instr :=
  if d.rsv0 ≠ 0 then .error .rsv0NotZero
  else if d.rsv1 ≠ 0 then .error .rsv1NotZero
  else if d.op = 0x1 then
    if d.dlen ≠ 0 then .error .initWithData
    else if data ≠ [] then .error .payloadLength
    else .ok (.init d.klen key)
  else if d.op = 0x2 then
    if d.klen ≠ 0 then .error .applyWithKey
    else if key ≠ [] then .error .payloadLength
    else .ok (.apply d.dlen data)
  else if d.op = 0x3 then .ok (.applyStatic d.klen d.dlen key data)
  else .error .reservedOpcode

/-- The length in bytes of the command a descriptor opens (R71). -/
def Descriptor.commandLength (d : Descriptor) : Nat :=
  Config.descBytes + d.klen.toNat + d.dlen.toNat

/-- The descriptor at the head of a byte string. -/
def headDescriptor (bs : List Byte) : Descriptor := Descriptor.ofBytes (bs.take Config.descBytes)

/-- The key payload of the command at the head of a byte string (R60). -/
def headKey (bs : List Byte) : List Byte :=
  (bs.drop Config.descBytes).take (headDescriptor bs).klen.toNat

/-- The data payload of the command at the head of a byte string (R60). -/
def headData (bs : List Byte) : List Byte :=
  ((bs.drop Config.descBytes).drop (headDescriptor bs).klen.toNat).take
    (headDescriptor bs).dlen.toNat

/-- Decoding a byte string: the command at its head (R60: descriptor, key payload, data payload) and
the bytes after it. A string shorter than its command is rejected as truncated. -/
def decode (bs : List Byte) : Except DecodeError (Instr × List Byte) :=
  if (headDescriptor bs).commandLength ≤ bs.length then
    match decodeCommand (headDescriptor bs) (headKey bs) (headData bs) with
    | .ok i => .ok (i, bs.drop (headDescriptor bs).commandLength)
    | .error e => .error e
  else .error .truncated

/-! ### Encoding -/

/-- The descriptor of a command, from the table of R63 and R64. -/
def Instr.descriptor : Instr → Descriptor
  | .init klen _ => Descriptor.build 0 0 klen 0 0x1
  | .apply dlen _ => Descriptor.build dlen 0 0 0 0x2
  | .applyStatic klen dlen _ _ => Descriptor.build dlen 0 klen 0 0x3

/-- The key payload of a command. -/
def Instr.keyPayload : Instr → List Byte
  | .init _ key => key
  | .apply _ _ => []
  | .applyStatic _ _ key _ => key

/-- The data payload of a command. -/
def Instr.dataPayload : Instr → List Byte
  | .init _ _ => []
  | .apply _ data => data
  | .applyStatic _ _ _ data => data

/-- The bytes of a command on the command stream (R60). -/
def encode (i : Instr) : List Byte :=
  i.descriptor.toBytes ++ i.keyPayload ++ i.dataPayload

/-! ### Words of the opcode table -/

/-- The first `n` bytes of the number `w`, least significant first. -/
def littleEndianBytes (n w : Nat) : List Byte :=
  (List.range n).map fun k => BitVec.ofNat 8 (w >>> (8 * k))

/-- The descriptor of a table word: its first eight bytes, with zeros where the table gives fewer. -/
def tableDescriptor (nbits w : Nat) : Descriptor :=
  Descriptor.ofBytes ((littleEndianBytes (nbits / 8) w).take Config.descBytes)

/-- `n` payload bytes of a table word from payload offset `at0` on: what the word has above its
descriptor, then zeros. -/
def tablePayload (nbits w at0 n : Nat) : List Byte :=
  let given := (((littleEndianBytes (nbits / 8) w).drop Config.descBytes).drop at0).take n
  given ++ List.replicate (n - given.length) 0

/-- The key payload of a table word. -/
def tableKey (nbits w : Nat) : List Byte :=
  tablePayload nbits w 0 (tableDescriptor nbits w).klen.toNat

/-- The data payload of a table word. -/
def tableData (nbits w : Nat) : List Byte :=
  tablePayload nbits w (tableDescriptor nbits w).klen.toNat (tableDescriptor nbits w).dlen.toNat

/-- The command the decoder reads from a command whose bits are `w`, bit 0 the least significant bit
of stream byte 0 (R47); every bit above `nbits` is zero. -/
def decodeTableWord (nbits w : Nat) : Option Instr :=
  match decodeCommand (tableDescriptor nbits w) (tableKey nbits w) (tableData nbits w) with
  | .ok i => some i
  | .error _ => none

end Sys2Proof
end

