-- ==== Sys2Proof/Machine/State.lean ====
section
/-! DEFINITION. The engine's state (`10_state.md` R20 to R38), the framing state of the command interface
(`30_encoding.md` R68), the host's side of the two streams (`70_reset_and_hazards.md` R194), the
outcomes other than a next state, and the state after reset (R35). -/

namespace Sys2Proof.Machine

/-- A Permutation State (R1, R14): a table with the two stream-generation cursors. The session
context `{S, i, j}` and the scratch context `{T, ti, tj}` have this shape. -/
structure PermState where
  /-- `S` (R22) or `T` (R31). -/
  table : Table
  /-- `i` (R24) or `ti` (R31). -/
  i : Byte
  /-- `j` (R25) or `tj` (R31). -/
  j : Byte
  deriving DecidableEq, Repr

/-- The framing state machine's state (R68), with the bytes it has stored. -/
inductive Frame where
  /-- `DESC(n)`: `got` holds the n descriptor bytes received so far. -/
  | desc (got : List Byte)
  /-- `KEY(r)`: `got` holds the key bytes stored so far, and r = KLEN − |got| are still to come. -/
  | key (d : Descriptor) (got : List Byte)
  /-- `DATA(r)`: `got` holds the data bytes stored so far, and r = DLEN − |got| are still to come. -/
  | data (d : Descriptor) (key got : List Byte)
  /-- `EXEC`: the command is whole and runs. -/
  | exec (d : Descriptor) (key data : List Byte)
  /-- `RESP(r)`: `left` holds the r response bytes still to emit. -/
  | resp (left : List Byte)
  deriving DecidableEq, Repr

/-- The status of a command (R70). It is not stored: it lives in the response only (R33). -/
inductive Status where
  /-- The command completed (R151). -/
  | ok
  /-- The key length is outside [5, 256] (R152). -/
  | errKeyLength
  /-- APPLY with no valid session (R153). -/
  | errNoSession
  /-- An illegal descriptor (R154). -/
  | errIllegalCommand
  deriving DecidableEq, Repr

/-- Why the engine makes no step. None of these is a fault of the hardware, which has none (R150, R170):
the engine waits for its host, and the host has no move left. -/
inductive Fault where
  /-- The run has ended (R193): the framing is at `DESC(0)` and the host sends no further byte. Raised by
  `descStep`. Safe: the machine stops where the hardware idles. -/
  | runEnded
  /-- Stuck in `DESC(n)`, n ≥ 1 (R191): a descriptor byte the host never sends. Raised by `descStep`.
  Safe. -/
  | stuckInDesc
  /-- Stuck in `KEY(r)`, r ≥ 1 (R191): a key byte the host never sends. Raised by `keyStep`. Safe. -/
  | stuckInKey
  /-- Stuck in `DATA(r)`, r ≥ 1 (R191): a data byte the host never sends. Raised by `dataStep`. Safe. -/
  | stuckInData
  /-- Stuck in `RESP(r)`, r ≥ 1 (R187, R191): a response byte the host never takes. Raised by
  `respStep`. Safe. -/
  | stuckInResp
  deriving DecidableEq, Repr

/-- Why a command record is refused (R170: only a record no byte stream can produce). -/
inductive Refusal where
  /-- An instruction without a meaning yet. Raised by an arm of `exec` only; no arm raises it. Safe. -/
  | notModelled (mnemonic : String)
  /-- A record whose payload lengths disagree with KLEN and DLEN (R76, U10). Raised by the three
  meanings and by `execIllegal`. Safe: no byte stream produces such a record. -/
  | payloadMismatch
  deriving DecidableEq, Repr

/-- The whole state. The first eight fields are the engine's registers and tables (R34), `frame` is the
command interface's framing state (R68), the next four are the host's side (R43, R44, R194), and
`draws` is the model's own counter of free values (log entry 3). -/
structure State where
  /-- `{S, i, j}`: the session's Permutation State (R22, R24, R25). -/
  session : PermState
  /-- `VALID`: the session-valid flag (R26). -/
  valid : Bool
  /-- `{T, ti, tj}`: the scratch context (R31). -/
  scratch : PermState
  /-- `ki`: the KSA's first scheduling index, 9 bits so that it can hold 256 (R30, R34). -/
  ki : BitVec 9
  /-- `kj`: the KSA's second scheduling index (R30). -/
  kj : Byte
  /-- `KL`: the length of the key in KBUF (R32). -/
  kl : BitVec 9
  /-- `KBUF[0..255]`: the key buffer (R32). -/
  kbuf : Table
  /-- The framing state (R68). -/
  frame : Frame
  /-- The command stream (R43): the bytes the host sends that the engine has not consumed, next first. -/
  cmdIn : List Byte
  /-- How many response bytes the host will still take (R194 "take them at any pace"; R195 `P_DRAIN`). -/
  takes : Nat
  /-- The response stream as the host has it (R44): every byte taken, oldest first. -/
  respOut : List Byte
  /-- The platform's resets still to come (R180, R194 "reset at any time"): each entry is the number of
  engine steps before that reset, counted from the reset before it. -/
  resets : List Nat
  /-- The model's own counter: how many commands have ended that left working registers undefined. -/
  draws : Nat
  deriving DecidableEq, Repr

/-- A table of zeros: the model's content of a table the spec leaves unspecified at reset (log entry 2). -/
@[irreducible] def zeroTable : Table := Vector.replicate 256 0

/-- The state after reset (R35, R180): `VALID = 0` and the framing at `DESC(0)` with no response pending.
The spec leaves every other register unspecified, and the model gives it 0 (log entry 2). The host
has sent nothing, takes nothing and has no reset to come. -/
def State.reset : State where
  session := ⟨zeroTable, 0, 0⟩
  valid := false
  scratch := ⟨zeroTable, 0, 0⟩
  ki := 0
  kj := 0
  kl := 0
  kbuf := zeroTable
  frame := .desc []
  cmdIn := []
  takes := 0
  respOut := []
  resets := []
  draws := 0

end Sys2Proof.Machine
end

