-- ==== Sys2Proof/Machine/Flags.lean ====
section
/-! DEFINITION. The status byte (`30_encoding.md` R70) and the one flag the engine keeps, VALID
(`10_state.md` R26, R33). There are no condition codes. -/

namespace Sys2Proof.Machine

/-- The encoding of the status byte (R70). -/
def Status.code : Status → Byte
  | .ok => 0x00
  | .errKeyLength => 0x01
  | .errNoSession => 0x02
  | .errIllegalCommand => 0x03

/-- `VALID <- 1` (R96). -/
def setValid (s : State) : State := { s with valid := true }

end Sys2Proof.Machine
end

