-- ==== Sys2Proof/Machine/Operands.lean ====
section
/-! DEFINITION. The operands of a command: the two payloads with their counts, the key-length bound and
the key buffer (`30_encoding.md` R62, R76; `40_ksa.md` R91; `10_state.md` R32; `20_memory.md` R42,
R46). -/

namespace Sys2Proof.Machine

/-- R76: the key payload has KLEN bytes. -/
def keyFits (klen : BitVec 9) (key : List Byte) : Bool := key.length == klen.toNat

/-- R76: the data payload has DLEN bytes. -/
def dataFits (dlen : BitVec 32) (data : List Byte) : Bool := data.length == dlen.toNat

/-- R91, R152: `KEY_MIN ≤ KLEN ≤ KEY_MAX`. -/
def keyLengthOk (klen : BitVec 9) : Bool :=
  decide (Config.keyMin ≤ klen.toNat ∧ klen.toNat ≤ Config.keyMax)

/-- `for n in 0..KL-1: KBUF[n] <- key[n]` (R90): the entries past the key keep what they held.
(Irreducible, as every whole-table operation is, so that no unification runs through 256 entries.) -/
@[irreducible] def keyInto (kbuf : Table) (key : List Byte) : Table :=
  Vector.ofFn fun n => key.getD n.val (kbuf.get n)

/-- `KL <- KLEN`, then the copy of the key payload into KBUF (R32, R90). -/
def loadKey (klen : BitVec 9) (key : List Byte) (s : State) : State :=
  { s with kl := klen, kbuf := keyInto s.kbuf key }

/-- `KBUF[ki mod KL]` (R42, R93): the remainder is exact. -/
def keyByte (kbuf : Table) (kl : BitVec 9) (ki : Nat) : Byte :=
  kbuf.get (BitVec.ofNat 8 (ki % kl.toNat)).toFin

end Sys2Proof.Machine
end

