-- ==== Sys2Proof/Machine/Ops.lean ====
section
/-! DEFINITION. The named operations every command is made of: table access and swap (`00_scope.md` R11,
`20_memory.md` R41), the KSA (`40_ksa.md` R92, R93, R95), the PRGA step and the keystream
(`41_prga.md` R112, R114), the end of a command (R11 `finish`, `raise`), and what becomes of the
working registers when a command ends (`10_state.md` R30 to R32). -/

namespace Sys2Proof.Machine

/-! ### Tables -/

/-- `X[x]` (R11, R41). -/
def readEntry (t : Table) (x : Byte) : Byte := t.get x.toFin

/-- `X[x] <- v` (R11, R41). -/
def writeEntry (t : Table) (x v : Byte) : Table := t.set x.toNat v x.isLt

/-- `swap(X, a, b)` (R11): both entries are read before either is written. -/
def swapEntries (t : Table) (a b : Byte) : Table :=
  writeEntry (writeEntry t a (readEntry t b)) b (readEntry t a)

/-- The identity permutation (R92). -/
@[irreducible] def identityTable : Table := Vector.ofFn fun n => BitVec.ofFin n

/-! ### The key scheduling algorithm -/

/-- One iteration of R93 at scheduling index `ki`, on the table and `kj`. -/
def ksaStep (kbuf : Table) (kl : BitVec 9) (ki : Nat) (q : Table × Byte) : Table × Byte :=
  let kj := q.2 + readEntry q.1 (BitVec.ofNat 8 ki) + keyByte kbuf kl ki
  (swapEntries q.1 (BitVec.ofNat 8 ki) kj, kj)

/-- The table and `kj` after the first `n` iterations of R93: R92's identity and `kj = 0` before the
first. -/
def ksaRun (kbuf : Table) (kl : BitVec 9) : Nat → Table × Byte
  | 0 => (identityTable, 0)
  | n + 1 => ksaStep kbuf kl n (ksaRun kbuf kl n)

/-- `KSA` (R93): all 256 iterations. (Irreducible, so that no unification runs them.) -/
@[irreducible] def ksa (kbuf : Table) (kl : BitVec 9) : Table × Byte := ksaRun kbuf kl 256

/-- The KSA on the key in KBUF: the scheduled table, and the state with `ki` and `kj` at the values the
loop ends with (R30, R34). -/
def runKsa (s : State) : Table × State :=
  ((ksa s.kbuf s.kl).1, { s with ki := 256, kj := (ksa s.kbuf s.kl).2 })

/-- R95: the scheduled table with both stream-generation cursors at 0. -/
def startCursors (t : Table) : PermState := ⟨t, 0, 0⟩

/-! ### The pseudo-random generation algorithm -/

/-- `PRGA_STEP` (R112, R113): every read of step 4 comes after the swap. -/
def prgaStep (p : PermState) : PermState × Byte :=
  let x := p.i + 1
  let y := p.j + readEntry p.table x
  let t := swapEntries p.table x y
  (⟨t, x, y⟩, readEntry t (readEntry t x + readEntry t y))

/-- The loop of R110 and R131: one PRGA step per data byte, in order, and the XOR of R114. -/
def applyKeystream (p : PermState) : List Byte → PermState × List Byte
  | [] => (p, [])
  | b :: bs =>
    let k := prgaStep p
    let r := applyKeystream k.1 bs
    (r.1, (b ^^^ k.2) :: r.2)

/-! ### The end of a command -/

/-- `finish(status)` (R11, R69): the response is the status byte and the data bytes `out`. -/
def finish (st : Status) (out : List Byte) (s : State) : State :=
  { s with frame := .resp (st.code :: out) }

/-- `raise E` (R11, R156): the engine's one way to take an error. Nothing else is written, and the data
payload comes back unchanged. -/
def raise (e : Status) (data : List Byte) (s : State) : State := finish e data s

/-- The end of INIT for its working registers (R30, R32): `ki`, `kj`, KBUF and KL hold no defined value,
and the key is not retained. -/
def retireKey (s : State) : State :=
  { s with
    ki := Config.deadKi s.draws
    kj := Config.deadKj s.draws
    kbuf := Config.deadKbuf s.draws
    kl := Config.deadKl s.draws
    draws := s.draws + 1 }

/-- The end of APPLY_STATIC for its working registers (R31, R32, R131): the scratch context is dead too. -/
def retireScratch (s : State) : State :=
  retireKey { s with
    scratch := ⟨Config.deadT s.draws, Config.deadTi s.draws, Config.deadTj s.draws⟩ }

end Sys2Proof.Machine
end

