-- ==== Sys2Proof/Machine/Apply.lean ====
section
/-! DEFINITION. APPLY (`41_prga.md` R110 to R122). -/

namespace Sys2Proof.Machine

/-- `APPLY data=<DLEN bytes>` (R110). Without a valid session it fails before any PRGA step (R111); else
each data byte in order is XORed with the session's next keystream byte, and the session advances
(R112, R114). VALID is not written. -/
def execApply (dlen : BitVec 32) (data : List Byte) (s : State) :
    Host.Outcome State Fault Refusal :=
  if !dataFits dlen data then .refused .payloadMismatch
  else if !s.valid then .next (raise .errNoSession data s)
  else
    let r := applyKeystream s.session data
    .next (finish .ok r.2 { s with session := r.1 })

end Sys2Proof.Machine
end

