-- ==== Sys2Proof/Machine/ApplyStatic.lean ====
section
/-! DEFINITION. APPLY_STATIC (`42_stateless.md` R130 to R140). -/

namespace Sys2Proof.Machine

/-- `APPLY_STATIC key=<KLEN bytes> data=<DLEN bytes>` (R131). The key length is checked even when there is
no data (R135, R136). The KSA and the PRGA run on the scratch context, which is dead afterwards (R31);
the session context is neither read nor written (R132). -/
def execApplyStatic (klen : BitVec 9) (dlen : BitVec 32) (key data : List Byte) (s : State) :
    Host.Outcome State Fault Refusal :=
  if !(keyFits klen key && dataFits dlen data) then .refused .payloadMismatch
  else if !keyLengthOk klen then .next (raise .errKeyLength data s)
  else
    let scheduled := runKsa (loadKey klen key s)
    let r := applyKeystream (startCursors scheduled.1) data
    .next (finish .ok r.2 (retireScratch { scheduled.2 with scratch := r.1 }))

end Sys2Proof.Machine
end

