-- ==== Sys2Proof/Machine/Init.lean ====
section
/-! DEFINITION. INIT (`40_ksa.md` R90 to R101). -/

namespace Sys2Proof.Machine

/-- `INIT key=<KLEN bytes>` (R90). The key length is checked before anything is written (R91, R97); on
success S, i, j and VALID are all written (R92, R93, R95, R96) and the response is the status byte
alone. -/
def execInit (klen : BitVec 9) (key : List Byte) (s : State) :
    Host.Outcome State Fault Refusal :=
  if !keyFits klen key then .refused .payloadMismatch
  else if !keyLengthOk klen then .next (raise .errKeyLength [] s)
  else
    let scheduled := runKsa (loadKey klen key s)
    .next (finish .ok [] (retireKey (setValid
      { scheduled.2 with session := startCursors scheduled.1 })))

end Sys2Proof.Machine
end

