-- ==== Sys2Proof/Machine/Dispatch.lean ====
section
/-! DEFINITION. The dispatch of `00_scope.md` R13: one arm per command of `opcode_table.json`, each a call
of that command's meaning. -/

namespace Sys2Proof.Machine

def exec (i : Instr) (s : State) : Host.Outcome State Fault Refusal :=
  match i with
  | .init klen key => Sys2Proof.Machine.execInit klen key s
  | .apply dlen data => Sys2Proof.Machine.execApply dlen data s
  | .applyStatic klen dlen key data => Sys2Proof.Machine.execApplyStatic klen dlen key data s

end Sys2Proof.Machine
end

