-- ==== Sys2Proof/Machine/Framing.lean ====
section
/-! DEFINITION. The command interface: the framing state machine (`30_encoding.md` R68), waiting
(`70_reset_and_hazards.md` R191), and reset (R180, R182). Each transition of R68 is one step. -/

namespace Sys2Proof.Machine

/-! ### Reset and the steps before it -/

/-- The platform asserts reset now (R180): the next entry of `resets` has come down to 0. -/
def resetDue (s : State) : Bool := s.resets.head? == some 0

/-- One engine step passes before the next reset. -/
def countDown : List Nat → List Nat
  | [] => []
  | n :: later => (n - 1) :: later

/-- The state in which the engine makes this step. -/
def tick (s : State) : State := { s with resets := countDown s.resets }

/-- Reset (R180, R182): every register of the engine and the framing take their reset values, so that a
command in flight is abandoned and the next stream byte is byte 0 of a descriptor. What the host has
already taken stays taken, and what it has yet to send is still to come. -/
def resetEngine (s : State) : State :=
  { State.reset with
    cmdIn := s.cmdIn
    takes := s.takes
    respOut := s.respOut
    resets := s.resets.tail
    draws := s.draws }

/-- Waiting (R168, R191): nothing changes. A later reset ends the wait, so with one to come the engine
waits on; else it is stuck, or the run has ended, as `f` says. -/
def waitFor (f : Fault) (s : State) : Host.Outcome State Fault Refusal :=
  if s.resets = [] then .fault f else .next s

/-! ### The transitions of R68 -/

/-- `DESC(n)` takes a byte: `DESC(n+1)` while n < 7, else the descriptor is complete and `KEY(KLEN)`. -/
def takeDescByte (got : List Byte) (b : Byte) : Frame :=
  if got.length < 7 then .desc (got ++ [b]) else .key (Descriptor.ofBytes (got ++ [b])) []

/-- A step in `DESC(n)`. At `DESC(0)` with no byte to come the run has ended (R193); inside a descriptor
the engine is stuck (R191). -/
def descStep (got : List Byte) (s : State) : Host.Outcome State Fault Refusal :=
  match s.cmdIn with
  | [] => waitFor (if got = [] then .runEnded else .stuckInDesc) s
  | b :: rest => .next { s with cmdIn := rest, frame := takeDescByte got b }

/-- A step in `KEY(r)`: store a key byte while r > 0; `KEY(0)` goes to `DATA(DLEN)`. -/
def keyStep (d : Descriptor) (got : List Byte) (s : State) : Host.Outcome State Fault Refusal :=
  if got.length < d.klen.toNat then
    match s.cmdIn with
    | [] => waitFor .stuckInKey s
    | b :: rest => .next { s with cmdIn := rest, frame := .key d (got ++ [b]) }
  else .next { s with frame := .data d got [] }

/-- A step in `DATA(r)`: store a data byte while r > 0; `DATA(0)` goes to `EXEC`. -/
def dataStep (d : Descriptor) (key got : List Byte) (s : State) :
    Host.Outcome State Fault Refusal :=
  if got.length < d.dlen.toNat then
    match s.cmdIn with
    | [] => waitFor .stuckInData s
    | b :: rest => .next { s with cmdIn := rest, frame := .data d key (got ++ [b]) }
  else .next { s with frame := .exec d key got }

/-- A step in `RESP(r)`: the host takes the next response byte while r > 0; `RESP(0)` goes to `DESC(0)`. -/
def respStep (left : List Byte) (s : State) : Host.Outcome State Fault Refusal :=
  match left with
  | [] => .next { s with frame := .desc [] }
  | b :: rest =>
    match s.takes with
    | 0 => waitFor .stuckInResp s
    | n + 1 => .next { s with takes := n, respOut := s.respOut ++ [b], frame := .resp rest }

/-- The command `EXEC` holds for a table word (R68): its descriptor and payloads, all received. -/
def tableFrame (nbits w : Nat) : Frame :=
  .exec (tableDescriptor nbits w) (tableKey nbits w) (tableData nbits w)

end Sys2Proof.Machine
end

