-- ==== Sys2Proof/Machine/Illegal.lean ====
section
/-! DEFINITION. What the engine does with a command whose descriptor is illegal (`30_encoding.md` R65;
`60_exceptions.md` R154, R156). It is no row of the opcode table, and it is a defined outcome. -/

namespace Sys2Proof.Machine

/-- An illegal command (R154): its payloads have been consumed, its status is `ERR_ILLEGAL_COMMAND` and
its data payload comes back unchanged, whatever else is wrong with it (R155). A record no byte stream
produces is refused (R76). -/
def execIllegal (d : Descriptor) (key data : List Byte) (s : State) :
    Host.Outcome State Fault Refusal :=
  if !(keyFits d.klen key && dataFits d.dlen data) then .refused .payloadMismatch
  else .next (raise .errIllegalCommand data s)

end Sys2Proof.Machine
end

