-- ==== Sys2Proof/Machine/Step.lean ====
section
/-! DEFINITION. One step of the engine: a reset that is due, or one transition of the framing state machine
(`30_encoding.md` R68), of which `EXEC` runs the whole command (`00_scope.md` R13). -/

namespace Sys2Proof.Machine

/-- One step. In `EXEC` the received descriptor and payloads are decoded: a legal command runs its
meaning, and any other is an illegal command (R66, R154). -/
def step (s : State) : Host.Outcome State Fault Refusal :=
  if resetDue s then .next (resetEngine s)
  else
    match s.frame with
    | .desc got => descStep got (tick s)
    | .key d got => keyStep d got (tick s)
    | .data d key got => dataStep d key got (tick s)
    | .exec d key data =>
      match decodeCommand d key data with
      | .ok i => exec i (tick s)
      | .error _ => execIllegal d key data (tick s)
    | .resp left => respStep left (tick s)

/-- `s` with the command of a table word received in full and about to run: the framing is at `EXEC` with
its descriptor and payloads, and no reset is due. This stands for the host's sending of the command
from `DESC(0)` on (log entry 5). -/
def State.withFetchWord (s : State) (nbits w : Nat) : State :=
  { s with frame := tableFrame nbits w, resets := [] }

end Sys2Proof.Machine
end

