-- ==== Sys2Proof/Machine/Assembly.lean ====
section
/-! DEFINITION. The command-stream assembly of `30_encoding.md` R72 and its pseudo-instructions (R73): the lines a
host writes, and the stream bytes they stand for. A line is taken as read: how its text is split into
words is host software (`00_scope.md` R5), and no step of the engine uses this file. -/

namespace Sys2Proof.Machine

/-- `<bytes>` (R72). A list that is missing is the empty one. -/
inductive ByteText where
  /-- `01 02 03`. -/
  | hex (bytes : List Byte)
  /-- `"Secret"`: the characters are the bytes. -/
  | quoted (text : String)
  /-- `00*<n>`. -/
  | zeros (n : Nat)
  deriving DecidableEq, Repr

/-- The bytes a `<bytes>` stands for (R72). -/
def byteTextBytes : ByteText → List Byte
  | .hex bytes => bytes
  | .quoted text => text.toList.map fun c => BitVec.ofNat 8 c.toNat
  | .zeros n => List.replicate n 0

/-- A line (R72), the pseudo-instructions among them (R73). -/
inductive AsmLine where
  /-- `INIT key=<bytes>`. -/
  | init (key : ByteText)
  /-- `APPLY data=<bytes>`. -/
  | apply (data : ByteText)
  /-- `APPLY_STATIC key=<bytes> data=<bytes>`. -/
  | applyStatic (key data : ByteText)
  /-- `.cmd op=<n> rsv0=<n> klen=<n> rsv1=<n> dlen=<n> [key=<bytes>] [data=<bytes>]`. -/
  | cmd (op rsv0 : BitVec 4) (klen : BitVec 9) (rsv1 : BitVec 15) (dlen : BitVec 32)
    (key data : ByteText)
  /-- `KEYSTREAM n`. -/
  | keystream (n : Nat)
  /-- `KEYSTREAM_STATIC key=<bytes> n`. -/
  | keystreamStatic (key : ByteText) (n : Nat)
  /-- `REKEY key=<bytes>`. -/
  | rekey (key : ByteText)
  deriving DecidableEq, Repr

/-- The expansion of the pseudo-instructions (R73); every other line is its own. -/
def expandLine : AsmLine → AsmLine
  | .keystream n => .apply (.zeros n)
  | .keystreamStatic key n => .applyStatic key (.zeros n)
  | .rekey key => .init key
  | line => line

/-- The command a line spells, where it is no `.cmd` (R72): KLEN and DLEN are the byte counts of the lists. -/
def lineCommand (line : AsmLine) : Option Instr :=
  match expandLine line with
  | .init key =>
    some (.init (BitVec.ofNat 9 (byteTextBytes key).length) (byteTextBytes key))
  | .apply data =>
    some (.apply (BitVec.ofNat 32 (byteTextBytes data).length) (byteTextBytes data))
  | .applyStatic key data =>
    some (.applyStatic (BitVec.ofNat 9 (byteTextBytes key).length)
      (BitVec.ofNat 32 (byteTextBytes data).length) (byteTextBytes key) (byteTextBytes data))
  | _ => none

/-- The stream bytes of a line (R60, R72), or none where a list does not fit its count: longer than the
count field can say, or, in a `.cmd`, of another length than the count it gives. -/
def assemble (line : AsmLine) : Option (List Byte) :=
  match line with
  | .cmd op rsv0 klen rsv1 dlen key data =>
    if (byteTextBytes key).length = klen.toNat ∧ (byteTextBytes data).length = dlen.toNat then
      some ((Descriptor.build dlen rsv1 klen rsv0 op).toBytes ++ byteTextBytes key ++
        byteTextBytes data)
    else none
  | line =>
    match lineCommand line with
    | some i => if i.wellFormed then some (encode i) else none
    | none => none

end Sys2Proof.Machine
end

