-- ==== Sys2Proof/Safety.lean ====
section
/-! DEFINITION. The terms claims about the engine are stated in: the permutation invariant
(`10_state.md` R23), the well-formed framing states (`30_encoding.md` R68), what a host can tell apart
(R36), runs of whole commands (R13), and the algorithms of R93 and R112 written a second time, over
tables as functions, as the yardstick for the machine's own. -/

namespace Sys2Proof.Machine

/-! ### Invariants -/

/-- R23: each value 0..255 appears in exactly one entry. -/
def IsPermutation (t : Table) : Prop := ∀ v : Byte, ∃! x : Byte, readEntry t x = v

/-- The framing states R68 reaches: the stored bytes never exceed their count, and a payload the framing
has left behind is whole. -/
def Frame.Sound : Frame → Prop
  | .desc got => got.length ≤ 7
  | .key d got => got.length ≤ d.klen.toNat
  | .data d keyBytes got => keyBytes.length = d.klen.toNat ∧ got.length ≤ d.dlen.toNat
  | .exec d keyBytes dataBytes =>
    keyBytes.length = d.klen.toNat ∧ dataBytes.length = d.dlen.toNat
  | .resp _ => True

/-- The states of R195 `P_START`, at any point of the framing: `VALID = 1` implies that S is a permutation
(R23), and the framing state is one R68 reaches. -/
structure State.Inv (s : State) : Prop where
  /-- R23. -/
  perm : s.valid = true → IsPermutation s.session.table
  /-- R68. -/
  frame : s.frame.Sound

/-! ### What a host can tell apart -/

/-- Two states no host can tell apart (R36): they differ at most in the registers the spec leaves
unspecified, that is, S, i and j while `VALID = 0`, the scratch context, and the KSA's working
registers with the key buffer (and in the model's own counter). -/
structure HostEquiv (s t : State) : Prop where
  /-- VALID is observable as `ERR_NO_SESSION` (R34). -/
  valid : s.valid = t.valid
  /-- S, i and j are observable through the keystream while there is a session. -/
  session : s.valid = true → s.session = t.session
  /-- The framing state decides what the next byte means. -/
  frame : s.frame = t.frame
  /-- The command stream. -/
  cmdIn : s.cmdIn = t.cmdIn
  /-- The host's willingness to take response bytes. -/
  takes : s.takes = t.takes
  /-- The response stream. -/
  respOut : s.respOut = t.respOut
  /-- The platform's resets. -/
  resets : s.resets = t.resets

/-- The observation of a run (R193): the response stream, the final VALID, and S, i and j while there is a
session. -/
def observation (s : State) : List Byte × Bool × Option PermState :=
  (s.respOut, s.valid, if s.valid then some s.session else none)

/-- Two outcomes no host can tell apart. -/
def OutcomeEquiv : Host.Outcome State Fault Refusal → Host.Outcome State Fault Refusal → Prop
  | .next s, .next t => HostEquiv s t
  | .fault f, .fault g => f = g
  | .refused f, .refused g => f = g
  | _, _ => False

/-! ### Commands -/

/-- R67, R91: the key lengths the engine schedules, in numbers. -/
abbrev ValidKeyLength (klen : BitVec 9) : Prop := 5 ≤ klen.toNat ∧ klen.toNat ≤ 256

/-- R65: the illegal descriptors. -/
abbrev IllegalDescriptor (d : Descriptor) : Prop :=
  (d.op = 0x0 ∨ 4 ≤ d.op.toNat) ∨ d.rsv0 ≠ 0 ∨ d.rsv1 ≠ 0 ∨
    (d.op = 0x1 ∧ d.dlen ≠ 0) ∨ (d.op = 0x2 ∧ d.klen ≠ 0)

/-- The response a state holds complete, if it holds one (R69). -/
def pendingResponse (s : State) : Option (List Byte) :=
  match s.frame with
  | .resp r => some r
  | _ => none

/-- A sequence of whole commands (R13, R53): each runs from the state the one before it left, and the
responses are collected in command order. -/
def runCommands : State → List Instr → Option (State × List (List Byte))
  | s, [] => some (s, [])
  | s, i :: is =>
    match exec i s with
    | .next t =>
      match pendingResponse t, runCommands t is with
      | some r, some q => some (q.1, r :: q.2)
      | _, _ => none
    | _ => none

/-- `n` steps of the engine, stopping at the first that answers no next state: the run of the host's
interface (`Host.Core.run`), written over `State`. -/
def runSteps : Nat → State → Host.Outcome State Fault Refusal
  | 0, s => .next s
  | n + 1, s =>
    match step s with
    | .next t => runSteps n t
    | .fault f => .fault f
    | .refused r => .refused r

/-- APPLY on a data payload, with DLEN its length. -/
def applyCommand (data : List Byte) : Instr := .apply (BitVec.ofNat 32 data.length) data

/-! ### The yardstick: R93 and R112 over tables as functions -/

/-- `swap(X, a, b)` (R11). -/
def refSwap (X : Byte → Byte) (a b : Byte) : Byte → Byte := fun x =>
  if x = a then X b else if x = b then X a else X x

/-- The table and `kj` after `n` iterations of R93, reading the key payload itself. -/
def refKsa (key : List Byte) : Nat → (Byte → Byte) × Byte
  | 0 => (fun n => n, 0)
  | n + 1 =>
    let X := (refKsa key n).1
    let kj := (refKsa key n).2 + X (BitVec.ofNat 8 n) + key.getD (n % key.length) 0
    (refSwap X (BitVec.ofNat 8 n) kj, kj)

/-- A table with its two cursors, as R112 names them. -/
structure RefState where
  /-- The table `X`. -/
  X : Byte → Byte
  /-- The first cursor. -/
  x : Byte
  /-- The second cursor. -/
  y : Byte

/-- A Permutation State of the machine, read as the yardstick's. -/
def PermState.ref (p : PermState) : RefState := ⟨readEntry p.table, p.i, p.j⟩

/-- R92 to R95: the state a key is scheduled into. -/
def refStart (key : List Byte) : RefState := ⟨(refKsa key 256).1, 0, 0⟩

/-- `PRGA_STEP` (R112): the state after it. -/
def refNext (p : RefState) : RefState :=
  let x := p.x + 1
  let y := p.y + p.X x
  ⟨refSwap p.X x y, x, y⟩

/-- The state after `n` PRGA steps. -/
def refAfter (p : RefState) : Nat → RefState
  | 0 => p
  | n + 1 => refNext (refAfter p n)

/-- The keystream byte of the `k`-th step, counting from 0 (R112 step 4, R133 `KS(key)[k]`). -/
def refByte (p : RefState) (k : Nat) : Byte :=
  let q := refAfter p (k + 1)
  q.X (q.X q.x + q.X q.y)

end Sys2Proof.Machine
end

