-- ==== Sys2Proof/Certificates/Slice0/Obligations.lean ====
section
/-! DEFINITION. The statements for the provers, each from the rules of `spec/` its docstring names. A
statement about a free value holds for every value of it: none names one. -/

open Sys2Proof Sys2Proof.Machine

/-! ## Encoding and decoding -/

/-- R74 (some of its rows) and other commands written out by R60, R61 and R66: these stream bytes decode to
these commands, and the all-zero descriptor and the INIT descriptor with DLEN = 3 to none. (The names of
the reasons, `reservedOpcode` and `initWithData`, are the decoder's own, a DESIGN CHOICE: log entry 14;
the spec has the one outcome ILLEGAL.) -/
def Obligations.SpecDescriptorBytesDecode : Prop :=
  decode [0x01, 0x05, 0, 0, 0, 0, 0, 0, 1, 2, 3, 4, 5] = .ok (.init 5 [1, 2, 3, 4, 5], []) ∧
  decode [0x02, 0, 0, 0, 0x02, 0, 0, 0, 0xAA, 0xBB, 0xCC] = .ok (.apply 2 [0xAA, 0xBB], [0xCC]) ∧
  decode [0x03, 0x01, 0, 0, 0x02, 0, 0, 0, 7, 8, 9] = .ok (.applyStatic 1 2 [7] [8, 9], []) ∧
  Descriptor.klen (Descriptor.ofBytes [0x01, 0x00, 0x01, 0x00, 0, 0, 0, 0]) = 256 ∧
  Descriptor.ofBytes [0x03, 0x06, 0, 0, 0x0E, 0, 0, 0] = 0x0000000E00000603 ∧
  decode [0, 0, 0, 0, 0, 0, 0, 0] = .error .reservedOpcode ∧
  decode [0x01, 0x05, 0, 0, 0x03, 0, 0, 0, 1, 2, 3, 4, 5, 6, 7, 8] = .error .initWithData

/-- R47: stream byte k of a descriptor carries its bits `[8k+7:8k]`, in both directions. -/
def Obligations.DescriptorBytesAreLittleEndian : Prop :=
  (∀ (bs : List Byte) (k b : Nat) (hk : k < bs.length), bs.length = 8 → b < 8 →
    (Descriptor.ofBytes bs).getLsbD (8 * k + b) = bs[k].getLsbD b) ∧
  (∀ d : Descriptor, d.toBytes.length = 8 ∧ Descriptor.ofBytes d.toBytes = d)

/-- R61 (its last sentence): which stream byte of the descriptor holds which field. -/
def Obligations.DescriptorFieldsInStreamBytes : Prop :=
  ∀ (dlen : BitVec 32) (rsv1 : BitVec 15) (klen : BitVec 9) (rsv0 op : BitVec 4),
    (Descriptor.build dlen rsv1 klen rsv0 op).toBytes =
      [rsv0 ++ op, klen.extractLsb' 0 8, rsv1.extractLsb' 0 7 ++ klen.extractLsb' 8 1,
        rsv1.extractLsb' 7 8, dlen.extractLsb' 0 8, dlen.extractLsb' 8 8, dlen.extractLsb' 16 8,
        dlen.extractLsb' 24 8] ∧
    (Descriptor.build dlen rsv1 klen rsv0 op).op = op ∧
    (Descriptor.build dlen rsv1 klen rsv0 op).rsv0 = rsv0 ∧
    (Descriptor.build dlen rsv1 klen rsv0 op).klen = klen ∧
    (Descriptor.build dlen rsv1 klen rsv0 op).rsv1 = rsv1 ∧
    (Descriptor.build dlen rsv1 klen rsv0 op).dlen = dlen

/-- R66, R75: a descriptor, with the payloads the framing takes for it, decodes to a command exactly when
it selects that command's row of the opcode table, and is illegal exactly when it selects none. -/
def Obligations.DecodeFollowsOpcodeTable : Prop :=
  ∀ (d : Descriptor) (key data : List Byte), key.length = d.klen.toNat →
    data.length = d.dlen.toNat →
    (decodeCommand d key data = .ok (.init d.klen key) ↔
      d &&& 0xFFFFFFFFFFFE00FF = 0x0000000000000001) ∧
    (decodeCommand d key data = .ok (.apply d.dlen data) ↔
      d &&& 0x00000000FFFFFFFF = 0x0000000000000002) ∧
    (decodeCommand d key data = .ok (.applyStatic d.klen d.dlen key data) ↔
      d &&& 0x00000000FFFE00FF = 0x0000000000000003) ∧
    ((∃ e, decodeCommand d key data = .error e) ↔
      d &&& 0xFFFFFFFFFFFE00FF ≠ 0x0000000000000001 ∧
      d &&& 0x00000000FFFFFFFF ≠ 0x0000000000000002 ∧
      d &&& 0x00000000FFFE00FF ≠ 0x0000000000000003)

/-- R60, R61, R66: decoding the bytes of a well-formed command, whatever follows them on the stream, gives
that command with every operand, and the rest. -/
def Obligations.DecodeEncodeRoundTrip : Prop :=
  ∀ (i : Instr) (rest : List Byte), i.wellFormed = true →
    decode (encode i ++ rest) = .ok (i, rest)

/-- R60, R66, R71: the other direction. What decodes is well-formed, and the bytes consumed are its one
encoding. -/
def Obligations.DecodedBytesAreTheEncoding : Prop :=
  ∀ (bs rest : List Byte) (i : Instr), decode bs = .ok (i, rest) →
    i.wellFormed = true ∧ bs = encode i ++ rest

/-- R72, R73. A `<bytes>` stands for its listed bytes, its zeros, or the codes of its ASCII characters. A line
of each core command spells that command with its lists as payloads and their lengths as counts, and
gives stream bytes that decode to exactly it. A `.cmd` line gives the descriptor with the fields it
names and its payloads, legal or not. Each pseudo-instruction gives what its expansion gives. (That a line
whose list does not fit its count gives no bytes is the model's choice: log entry 16.) -/
def Obligations.AssemblyLinesSpellTheirCommands : Prop :=
  (∀ (bytes : List Byte) (n : Nat), byteTextBytes (.hex bytes) = bytes ∧
    byteTextBytes (.zeros n) = List.replicate n 0) ∧
  (∀ (text : String) (k : Nat) (c : Char), text.toList[k]? = some c → c.toNat < 128 →
    (byteTextBytes (.quoted text)).length = text.toList.length ∧
    ((byteTextBytes (.quoted text))[k]?).map BitVec.toNat = some c.toNat) ∧
  (∀ key data : ByteText,
    let keyBytes := byteTextBytes key
    let dataBytes := byteTextBytes data
    let initLine := Instr.init (BitVec.ofNat 9 keyBytes.length) keyBytes
    let applyLine := Instr.apply (BitVec.ofNat 32 dataBytes.length) dataBytes
    let staticLine := Instr.applyStatic (BitVec.ofNat 9 keyBytes.length)
      (BitVec.ofNat 32 dataBytes.length) keyBytes dataBytes
    lineCommand (.init key) = some initLine ∧ lineCommand (.apply data) = some applyLine ∧
    lineCommand (.applyStatic key data) = some staticLine ∧
    (keyBytes.length < 2 ^ 9 → ∃ bs, assemble (.init key) = some bs ∧
      ∀ rest, decode (bs ++ rest) = .ok (initLine, rest)) ∧
    (dataBytes.length < 2 ^ 32 → ∃ bs, assemble (.apply data) = some bs ∧
      ∀ rest, decode (bs ++ rest) = .ok (applyLine, rest)) ∧
    (keyBytes.length < 2 ^ 9 → dataBytes.length < 2 ^ 32 →
      ∃ bs, assemble (.applyStatic key data) = some bs ∧
        ∀ rest, decode (bs ++ rest) = .ok (staticLine, rest)) ∧
    (2 ^ 9 ≤ keyBytes.length → assemble (.init key) = none) ∧
    (2 ^ 32 ≤ dataBytes.length → assemble (.apply data) = none) ∧
    (2 ^ 9 ≤ keyBytes.length ∨ 2 ^ 32 ≤ dataBytes.length →
      assemble (.applyStatic key data) = none)) ∧
  (∀ (op rsv0 : BitVec 4) (klen : BitVec 9) (rsv1 : BitVec 15) (dlen : BitVec 32)
    (key data : ByteText),
    ((byteTextBytes key).length = klen.toNat → (byteTextBytes data).length = dlen.toNat →
      ∃ bs, assemble (.cmd op rsv0 klen rsv1 dlen key data) = some bs ∧
        bs.length = 8 + klen.toNat + dlen.toNat ∧
        (headDescriptor bs).op = op ∧ (headDescriptor bs).rsv0 = rsv0 ∧
        (headDescriptor bs).klen = klen ∧ (headDescriptor bs).rsv1 = rsv1 ∧
        (headDescriptor bs).dlen = dlen ∧ headKey bs = byteTextBytes key ∧
        headData bs = byteTextBytes data) ∧
    (((byteTextBytes key).length ≠ klen.toNat ∨ (byteTextBytes data).length ≠ dlen.toNat) →
      assemble (.cmd op rsv0 klen rsv1 dlen key data) = none)) ∧
  (∀ (key : ByteText) (n : Nat),
    expandLine (.keystream n) = .apply (.zeros n) ∧
    expandLine (.keystreamStatic key n) = .applyStatic key (.zeros n) ∧
    expandLine (.rekey key) = .init key ∧
    assemble (.keystream n) = assemble (.apply (.zeros n)) ∧
    assemble (.keystreamStatic key n) = assemble (.applyStatic key (.zeros n)) ∧
    assemble (.rekey key) = assemble (.init key))

/-! ## INIT and the KSA -/

/-- R94: the table the KSA leaves is a permutation of 0..255 (for every key, of whatever length). -/
def Obligations.KsaLeavesPermutation : Prop :=
  ∀ (kbuf : Table) (kl : BitVec 9), IsPermutation (ksa kbuf kl).1

/-- R92, R93, R95, R96: INIT with a key of 5 to 256 bytes answers a next state, in any state. S is the table
the KSA makes of the key payload, i and j are 0, VALID is 1, the response is the byte `OK`, and the
scratch context and the host's side are untouched. (That the scratch context keeps its content, which R31
and U2 leave undefined between commands, is the model's reading: log entry 11.) -/
def Obligations.InitSchedulesTheKey : Prop :=
  ∀ (s : State) (klen : BitVec 9) (key : List Byte), key.length = klen.toNat →
    ValidKeyLength klen →
    ∃ t, exec (.init klen key) s = .next t ∧
      (∀ x, readEntry t.session.table x = (refKsa key 256).1 x) ∧
      t.session.i = 0 ∧ t.session.j = 0 ∧ t.valid = true ∧ t.frame = .resp [0x00] ∧
      t.scratch = s.scratch ∧ t.cmdIn = s.cmdIn ∧ t.takes = s.takes ∧ t.respOut = s.respOut ∧
      t.resets = s.resets

/-- R91, R97: INIT with a key length outside [5, 256] does no scheduling: only the response is made. -/
def Obligations.InitRejectsKeyLength : Prop :=
  ∀ (s : State) (klen : BitVec 9) (key : List Byte), key.length = klen.toNat →
    ¬ ValidKeyLength klen →
    exec (.init klen key) s = .next { s with frame := .resp [0x01] }

/-- R38, R51: the session a successful INIT leaves depends on the key alone. So it replaces an old session
entirely, and INIT twice with one key leaves what INIT once leaves. -/
def Obligations.InitSessionDependsOnKeyOnly : Prop :=
  ∀ (s s' : State) (klen : BitVec 9) (key : List Byte), key.length = klen.toNat →
    ValidKeyLength klen →
    ∃ t t' t'', exec (.init klen key) s = .next t ∧ exec (.init klen key) s' = .next t' ∧
      exec (.init klen key) t = .next t'' ∧
      t.session = t'.session ∧ t.valid = t'.valid ∧
      t''.session = t.session ∧ t''.valid = t.valid

/-! ## APPLY and the PRGA -/

/-- R112: one PRGA step. Both cursors advance, the two entries change places, no other entry changes, and
the keystream byte is read after the swap. -/
def Obligations.PrgaStepFollowsItsRule : Prop :=
  ∀ p : PermState,
    let q := (prgaStep p).1
    q.i = p.i + 1 ∧ q.j = p.j + readEntry p.table (p.i + 1) ∧
    readEntry q.table q.i = readEntry p.table q.j ∧
    readEntry q.table q.j = readEntry p.table q.i ∧
    (∀ x, x ≠ q.i → x ≠ q.j → readEntry q.table x = readEntry p.table x) ∧
    (prgaStep p).2 =
      readEntry q.table (readEntry q.table q.i + readEntry q.table q.j)

/-- R113: the sum of step 4 is the same before and after the swap, and the final read is not: at `t = x` or
`t = y` it gives the other entry of the old table. -/
def Obligations.KeystreamByteIsReadAfterSwap : Prop :=
  ∀ p : PermState,
    let x := p.i + 1
    let y := p.j + readEntry p.table x
    let t := readEntry p.table x + readEntry p.table y
    let q := (prgaStep p).1
    readEntry q.table x + readEntry q.table y = t ∧
    (t = x → (prgaStep p).2 = readEntry p.table y) ∧
    (t = y → (prgaStep p).2 = readEntry p.table x) ∧
    (t ≠ x → t ≠ y → (prgaStep p).2 = readEntry p.table t)

/-- R110, R112, R114: with a session, APPLY answers a next state. Data byte k is XORed with the keystream
byte of the k-th PRGA step from the session's state, the session advances by one step per data byte,
and every other register, VALID among them, and the host's side are untouched. (That T, ti, tj, ki, kj,
KBUF and KL keep contents which R30 to R32, U2 and U3 leave undefined between commands is the model's
reading: log entry 11.) -/
def Obligations.ApplyXorsTheKeystream : Prop :=
  ∀ (s : State) (dlen : BitVec 32) (data : List Byte), data.length = dlen.toNat →
    s.valid = true →
    ∃ p out, exec (.apply dlen data) s =
        .next { s with session := p, frame := .resp (0x00 :: out) } ∧
      out.length = data.length ∧
      (∀ k (h : k < data.length), out[k]? = some (data[k] ^^^ refByte s.session.ref k)) ∧
      p.ref = refAfter s.session.ref data.length

/-- R111, R153: APPLY while `VALID = 0` writes nothing and gives the data back. -/
def Obligations.ApplyNeedsSession : Prop :=
  ∀ (s : State) (dlen : BitVec 32) (data : List Byte), data.length = dlen.toNat →
    s.valid = false →
    exec (.apply dlen data) s = .next { s with frame := .resp (0x02 :: data) }

/-- R73: with a session, `KEYSTREAM n` answers `OK` and the next n keystream bytes of the session. -/
def Obligations.KeystreamLineGivesTheKeystream : Prop :=
  ∀ (s : State) (n : Nat), s.valid = true → n < 2 ^ 32 →
    ∃ i t out, lineCommand (.keystream n) = some i ∧ exec i s = .next t ∧
      t.frame = .resp (0x00 :: out) ∧ out.length = n ∧
      (∀ k, k < n → out[k]? = some (refByte s.session.ref k)) ∧
      t.session.ref = refAfter s.session.ref n

/-- R24: i is 0 after a successful INIT, and APPLY advances it by 1 mod 256 for each data byte. -/
def Obligations.CursorAdvancesByDataLength : Prop :=
  (∀ (s t : State) (klen : BitVec 9) (key : List Byte), ValidKeyLength klen →
    exec (.init klen key) s = .next t → t.session.i = 0) ∧
  (∀ (s : State) (dlen : BitVec 32) (data : List Byte), data.length = dlen.toNat →
    s.valid = true →
    ∃ t, exec (.apply dlen data) s = .next t ∧
      t.session.i.toNat = (s.session.i.toNat + data.length) % 256)

/-- R115: APPLY keeps the table a permutation. -/
def Obligations.ApplyKeepsPermutation : Prop :=
  ∀ (s t : State) (dlen : BitVec 32) (data : List Byte), IsPermutation s.session.table →
    exec (.apply dlen data) s = .next t → IsPermutation t.session.table

/-- R117: APPLY of A and then of B gives the data bytes of one APPLY of A ++ B from the same state, and
ends in the same S, i and j. -/
def Obligations.ApplyChunkingEquivalence : Prop :=
  ∀ (s : State) (a b : List Byte), s.valid = true → (a ++ b).length < 2 ^ 32 →
    ∃ t u w outA outB,
      exec (applyCommand a) s = .next t ∧ exec (applyCommand b) t = .next u ∧
      exec (applyCommand (a ++ b)) s = .next w ∧
      t.frame = .resp (0x00 :: outA) ∧ u.frame = .resp (0x00 :: outB) ∧
      w.frame = .resp (0x00 :: (outA ++ outB)) ∧
      outA.length = a.length ∧ outB.length = b.length ∧ w.session = u.session

/-- R118: the end state and the keystream of an APPLY depend on the start state and DLEN alone. -/
def Obligations.ApplyStateIgnoresData : Prop :=
  ∀ (s : State) (dlen : BitVec 32) (a b : List Byte), s.valid = true →
    a.length = dlen.toNat → b.length = dlen.toNat →
    ∃ t u outA outB, exec (.apply dlen a) s = .next t ∧ exec (.apply dlen b) s = .next u ∧
      t.frame = .resp (0x00 :: outA) ∧ u.frame = .resp (0x00 :: outB) ∧
      t.session = u.session ∧
      List.zipWith (· ^^^ ·) a outA = List.zipWith (· ^^^ ·) b outB

/-- R119: a fresh INIT with the same key undoes an APPLY that followed a fresh INIT, from whatever states;
and on one continuing session applying twice need not give the data back. -/
def Obligations.FreshSessionsAreSymmetric : Prop :=
  (∀ (s s' : State) (klen : BitVec 9) (key data : List Byte), key.length = klen.toNat →
    ValidKeyLength klen → data.length < 2 ^ 32 →
    ∃ t t' cipher,
      runCommands s [.init klen key, applyCommand data] = some (t, [[0x00], 0x00 :: cipher]) ∧
      cipher.length = data.length ∧
      runCommands s' [.init klen key, applyCommand cipher] = some (t', [[0x00], 0x00 :: data])) ∧
  (∃ (s t : State) (data once twice : List Byte), s.valid = true ∧
    IsPermutation s.session.table ∧
    runCommands s [applyCommand data, applyCommand once] =
      some (t, [0x00 :: once, 0x00 :: twice]) ∧ twice ≠ data)

/-! ## APPLY_STATIC and the two modes -/

/-- R131, R133: with a key of 5 to 256 bytes APPLY_STATIC answers a next state, in any state. Data byte k is
XORed with byte k of the keystream of the key, and the session context and the host's side are
untouched. -/
def Obligations.ApplyStaticXorsTheKeystreamOfTheKey : Prop :=
  ∀ (s : State) (klen : BitVec 9) (dlen : BitVec 32) (key data : List Byte),
    key.length = klen.toNat → data.length = dlen.toNat → ValidKeyLength klen →
    ∃ t out, exec (.applyStatic klen dlen key data) s = .next t ∧
      t.frame = .resp (0x00 :: out) ∧ out.length = data.length ∧
      (∀ k (h : k < data.length), out[k]? = some (data[k] ^^^ refByte (refStart key) k)) ∧
      t.session = s.session ∧ t.valid = s.valid ∧ t.cmdIn = s.cmdIn ∧ t.takes = s.takes ∧
      t.respOut = s.respOut ∧ t.resets = s.resets

/-- R135, R136 (D25): a key length outside [5, 256] is rejected before any keystream is made, and also when
there is no data. -/
def Obligations.ApplyStaticRejectsKeyLength : Prop :=
  ∀ (s : State) (klen : BitVec 9) (dlen : BitVec 32) (key data : List Byte),
    key.length = klen.toNat → data.length = dlen.toNat → ¬ ValidKeyLength klen →
    exec (.applyStatic klen dlen key data) s = .next { s with frame := .resp (0x01 :: data) }

/-- R132, R140: whatever its operands, an APPLY_STATIC neither reads nor writes the session context. Its
response is the same in any two states, with or without a session, and S, i, j and VALID are what
they were. -/
def Obligations.ApplyStaticIsIsolated : Prop :=
  ∀ (s s' : State) (klen : BitVec 9) (dlen : BitVec 32) (key data : List Byte),
    key.length = klen.toNat → data.length = dlen.toNat →
    ∃ t t' response, exec (.applyStatic klen dlen key data) s = .next t ∧
      exec (.applyStatic klen dlen key data) s' = .next t' ∧
      t.frame = .resp response ∧ t'.frame = .resp response ∧ response.head? ≠ some 0x02 ∧
      t.session = s.session ∧ t.valid = s.valid ∧
      t'.session = s'.session ∧ t'.valid = s'.valid

/-- R137: for a valid key, APPLY_STATIC returns the data bytes that INIT and then any split of the data over
APPLY commands returns, from whatever states. For a key of invalid length INIT and APPLY_STATIC fail
with `ERR_KEY_LENGTH`, and the data comes back. -/
def Obligations.StatefulAndStatelessAgree : Prop :=
  ∀ (s s' : State) (klen : BitVec 9) (key : List Byte) (chunks : List (List Byte)),
    key.length = klen.toNat → chunks.flatten.length < 2 ^ 32 →
    (ValidKeyLength klen →
      ∃ (t t' : State) (outs : List (List Byte)),
        runCommands s (.init klen key :: chunks.map applyCommand) =
          some (t, [0x00] :: outs.map (0x00 :: ·)) ∧
        outs.map List.length = chunks.map List.length ∧
        runCommands s' [.applyStatic klen (BitVec.ofNat 32 chunks.flatten.length) key
          chunks.flatten] = some (t', [0x00 :: outs.flatten])) ∧
    (¬ ValidKeyLength klen →
      ∃ t t', runCommands s [.init klen key] = some (t, [[0x01]]) ∧
        runCommands s' [.applyStatic klen (BitVec.ofNat 32 chunks.flatten.length) key
          chunks.flatten] = some (t', [0x01 :: chunks.flatten]))

/-- R139: APPLY_STATIC with one key, applied to its own output, gives the data back, from whatever states. -/
def Obligations.StaticReapplicationIsIdentity : Prop :=
  ∀ (s s' : State) (klen : BitVec 9) (dlen : BitVec 32) (key data : List Byte),
    key.length = klen.toNat → data.length = dlen.toNat → ValidKeyLength klen →
    ∃ t t' cipher, exec (.applyStatic klen dlen key data) s = .next t ∧
      t.frame = .resp (0x00 :: cipher) ∧ cipher.length = data.length ∧
      exec (.applyStatic klen dlen key cipher) s' = .next t' ∧ t'.frame = .resp (0x00 :: data)

/-! ## Status, errors and refusals -/

/-- R155, with R70 and R152 to R154: a whole command with no reset due answers a next state with one status,
the first that applies: illegal descriptor, key length of INIT and APPLY_STATIC, no session for APPLY,
`OK`. -/
def Obligations.StatusFollowsPriority : Prop :=
  ∀ (s : State) (d : Descriptor) (key data : List Byte), s.frame = .exec d key data →
    key.length = d.klen.toNat → data.length = d.dlen.toNat → s.resets.head? ≠ some 0 →
    ∃ t out, step s = .next t ∧ t.frame = .resp
      ((if IllegalDescriptor d then 0x03
        else if (d.op = 0x1 ∨ d.op = 0x3) ∧ ¬ ValidKeyLength d.klen then 0x01
        else if d.op = 0x2 ∧ s.valid = false then 0x02
        else 0x00) :: out)

/-- R69, R156, R45: the response of a whole command is a status byte and DLEN data bytes. With any status but
`OK` the data bytes are the command's own, S, i, j and VALID keep their values, and so does every
register that only the KSA and the PRGA use. (That these last keep contents which R30 to R32, U2 and U3
leave undefined between commands is the model's reading, log entry 11; `tick`, the count of steps before
the next reset, is log entry 6's.) -/
def Obligations.FailedCommandsEchoAndWriteNothing : Prop :=
  ∀ (s : State) (d : Descriptor) (key data : List Byte), s.frame = .exec d key data →
    key.length = d.klen.toNat → data.length = d.dlen.toNat → s.resets.head? ≠ some 0 →
    ∃ t status out, step s = .next t ∧ t.frame = .resp (status :: out) ∧
      out.length = d.dlen.toNat ∧
      (status ≠ 0x00 → out = data ∧ t = { tick s with frame := .resp (status :: data) })

/-- R154, R65, R156: a whole command with an illegal descriptor is consumed, answers `ERR_ILLEGAL_COMMAND` and
its own data, and changes nothing else. -/
def Obligations.IllegalCommandIsReported : Prop :=
  ∀ (s : State) (d : Descriptor) (key data : List Byte), s.frame = .exec d key data →
    key.length = d.klen.toNat → data.length = d.dlen.toNat → s.resets = [] →
    IllegalDescriptor d →
    step s = .next { s with frame := .resp (0x03 :: data) }

/-- R67: a key length outside [5, 256] does not make an INIT or APPLY_STATIC descriptor illegal. Every
value of the field decodes, and an out-of-range one fails with `ERR_KEY_LENGTH`. -/
def Obligations.KeyLengthIsNoEncodingError : Prop :=
  ∀ (s : State) (klen : BitVec 9) (dlen : BitVec 32) (key data : List Byte),
    key.length = klen.toNat → data.length = dlen.toNat →
    decodeCommand (Descriptor.build 0 0 klen 0 0x1) key [] = .ok (.init klen key) ∧
    decodeCommand (Descriptor.build dlen 0 klen 0 0x3) key data =
      .ok (.applyStatic klen dlen key data) ∧
    (¬ ValidKeyLength klen →
      exec (.init klen key) s = .next { s with frame := .resp [0x01] } ∧
      exec (.applyStatic klen dlen key data) s = .next { s with frame := .resp (0x01 :: data) })

/-- R76, R170: a command record is refused exactly when a payload's length disagrees with its count, whatever
its op. For the three commands every other record completes. An ILLEGAL record that fits is answered
with `ERR_ILLEGAL_COMMAND` and its data, and one that does not is refused. So a step at `EXEC` with no
reset due is refused exactly when the payloads do not fit the descriptor. (The refusal's place and name
are log entry 12's, and when a reset is due is log entry 6's.) -/
def Obligations.OnlyMismatchedRecordsAreRefused : Prop :=
  (∀ (i : Instr) (s : State),
    (i.wellFormed = true → ∃ t, exec i s = .next t) ∧
    (i.wellFormed = false → exec i s = .refused .payloadMismatch)) ∧
  (∀ (d : Descriptor) (key data : List Byte) (s : State),
    (key.length = d.klen.toNat ∧ data.length = d.dlen.toNat →
      execIllegal d key data s = .next { s with frame := .resp (0x03 :: data) }) ∧
    (key.length ≠ d.klen.toNat ∨ data.length ≠ d.dlen.toNat →
      execIllegal d key data s = .refused .payloadMismatch)) ∧
  (∀ (d : Descriptor) (key data : List Byte) (s : State), s.frame = .exec d key data →
    s.resets.head? ≠ some 0 →
    (IllegalDescriptor d → step s = execIllegal d key data (tick s)) ∧
    (key.length = d.klen.toNat ∧ data.length = d.dlen.toNat → ∃ t, step s = .next t) ∧
    (key.length ≠ d.klen.toNat ∨ data.length ≠ d.dlen.toNat →
      step s = .refused .payloadMismatch))

/-! ## The command interface -/

/-- The step runs the decoded instruction: in `EXEC` with a legal command and no reset due, a step is the
command's meaning in the state with the reset count taken down; with no reset to come at all, it is
the meaning in the state itself. What `withFetchWord` places is such a state. (The reset count and
`withFetchWord` are the model's: log entries 5 and 6.) -/
def Obligations.StepRunsTheDecodedCommand : Prop :=
  (∀ (s : State) (d : Descriptor) (key data : List Byte) (i : Instr),
    s.frame = .exec d key data → decodeCommand d key data = .ok i → s.resets.head? ≠ some 0 →
    step s = exec i (tick s) ∧ (s.resets = [] → step s = exec i s)) ∧
  (∀ (s : State) (nbits w : Nat) (i : Instr), decodeTableWord nbits w = some i →
    step (s.withFetchWord nbits w) = exec i (s.withFetchWord nbits w))

/-- R68: the transitions of the framing state machine outside `EXEC`, with no reset due. Each is made in the
state in which the steps before the next reset are counted down by one, and that is the state itself
when no reset is to come. (How the host's side and the resets stand in the state is the model's: log
entries 4 and 6.) -/
def Obligations.FramingTransitions : Prop :=
  (∀ s : State, (s.resets = [] → tick s = s) ∧
    (∀ n later, s.resets = (n + 1) :: later → tick s = { s with resets := n :: later })) ∧
  (∀ (s : State) (b : Byte) (rest : List Byte), s.resets.head? ≠ some 0 →
    (∀ got, s.frame = .desc got → s.cmdIn = b :: rest → got.length < 7 →
      step s = .next { tick s with cmdIn := rest, frame := .desc (got ++ [b]) }) ∧
    (∀ got, s.frame = .desc got → s.cmdIn = b :: rest → got.length = 7 →
      step s = .next
        { tick s with cmdIn := rest, frame := .key (Descriptor.ofBytes (got ++ [b])) [] }) ∧
    (∀ d got, s.frame = .key d got → s.cmdIn = b :: rest → got.length < d.klen.toNat →
      step s = .next { tick s with cmdIn := rest, frame := .key d (got ++ [b]) }) ∧
    (∀ d got, s.frame = .key d got → got.length = d.klen.toNat →
      step s = .next { tick s with frame := .data d got [] }) ∧
    (∀ d key got, s.frame = .data d key got → s.cmdIn = b :: rest →
      got.length < d.dlen.toNat →
      step s = .next { tick s with cmdIn := rest, frame := .data d key (got ++ [b]) }) ∧
    (∀ d key got, s.frame = .data d key got → got.length = d.dlen.toNat →
      step s = .next { tick s with frame := .exec d key got }) ∧
    (∀ n, s.frame = .resp (b :: rest) → s.takes = n + 1 →
      step s = .next
        { tick s with takes := n, respOut := s.respOut ++ [b], frame := .resp rest }) ∧
    (s.frame = .resp [] → step s = .next { tick s with frame := .desc [] }))

/-- R60, R68: from `DESC(0)`, a whole command on the stream is received byte by byte, whatever its
descriptor, and is then in `EXEC` with its descriptor and payloads, nothing else changed and the next
command's bytes untouched. (The host's side as data is the model's: log entry 4.) -/
def Obligations.WholeCommandIsReceived : Prop :=
  ∀ (s : State) (d : Descriptor) (key data rest : List Byte), s.frame = .desc [] →
    s.resets = [] → key.length = d.klen.toNat → data.length = d.dlen.toNat →
    s.cmdIn = d.toBytes ++ key ++ data ++ rest →
    runSteps (8 + key.length + data.length + 2) s =
      .next { s with cmdIn := rest, frame := .exec d key data }

/-- R44, R68: a response is taken in order by a host that takes it in full, and the engine is then at
`DESC(0)`. (The host's side as data is the model's: log entry 4.) -/
def Obligations.ResponseIsDrained : Prop :=
  ∀ (s : State) (response : List Byte), s.frame = .resp response → s.resets = [] →
    response.length ≤ s.takes →
    runSteps (response.length + 1) s =
      .next { s with
        frame := .desc []
        takes := s.takes - response.length
        respOut := s.respOut ++ response }

/-- R13, R68: the byte-level engine refines the command-level one. A well-formed command whose bytes stand on
the stream, with a host that takes its response, runs from `DESC(0)` to `DESC(0)` as one `exec`
followed by the delivery of its response. (The host's side as data is the model's: log entry 4.) -/
def Obligations.CommandRunsAsOneExec : Prop :=
  ∀ (s : State) (i : Instr) (rest : List Byte), i.wellFormed = true → s.frame = .desc [] →
    s.resets = [] → s.cmdIn = encode i ++ rest → 1 + i.dataPayload.length ≤ s.takes →
    ∃ t response, exec i
        { s with cmdIn := rest, frame := .exec i.descriptor i.keyPayload i.dataPayload } =
          .next t ∧
      t.frame = .resp response ∧ response.length = 1 + i.dataPayload.length ∧
      runSteps ((encode i).length + 2 + 1 + (response.length + 1)) s =
        .next { t with
          frame := .desc []
          takes := s.takes - response.length
          respOut := s.respOut ++ response }

/-- R191, R193: the engine makes no step exactly when it waits for a host that has no move left, and the
reason names the wait; the run has ended only at `DESC(0)`. (The host's side as data, and a stop for the end of a run, are the
model's: log entries 4, 6 and 7.) -/
def Obligations.StuckExactlyWhenTheHostIsDone : Prop :=
  ∀ (s : State) (f : Fault), step s = .fault f ↔ s.resets = [] ∧
    ((s.frame = .desc [] ∧ s.cmdIn = [] ∧ f = .runEnded) ∨
      (∃ got, s.frame = .desc got ∧ got ≠ [] ∧ s.cmdIn = [] ∧ f = .stuckInDesc) ∨
      (∃ d got, s.frame = .key d got ∧ got.length < d.klen.toNat ∧ s.cmdIn = [] ∧
        f = .stuckInKey) ∨
      (∃ d key got, s.frame = .data d key got ∧ got.length < d.dlen.toNat ∧ s.cmdIn = [] ∧
        f = .stuckInData) ∨
      (∃ b left, s.frame = .resp (b :: left) ∧ s.takes = 0 ∧ f = .stuckInResp))

/-- R43, R44: a step consumes at most the next byte of the command stream and appends at most one byte to
the response stream, and does nothing else to either. (The streams as lists are the model's: log entry
4.) -/
def Obligations.StreamsMoveInOrder : Prop :=
  ∀ s t : State, step s = .next t →
    ∃ consumed given, s.cmdIn = consumed ++ t.cmdIn ∧ consumed.length ≤ 1 ∧
      t.respOut = s.respOut ++ given ∧ given.length ≤ 1

/-! ## Reset -/

/-- R35: right after reset there is no session, and the framing is at `DESC(0)` with no response pending.
(The other registers' values are the model's choice, log entry 2, and are not stated.) -/
def Obligations.ResetClearsValidAndFraming : Prop :=
  State.reset.valid = false ∧ State.reset.frame = .desc [] ∧ pendingResponse State.reset = none

/-- R180, R182: a reset that is due abandons the command in flight, in any framing state: there is no
session, the next stream byte is byte 0 of a descriptor, nothing more is emitted, and the bytes taken
and the bytes to come are what they were. (When a reset is due is the model's: log entry 6.) -/
def Obligations.ResetAbandonsTheCommand : Prop :=
  ∀ (s : State) (later : List Nat), s.resets = 0 :: later →
    ∃ t, step s = .next t ∧ t.valid = false ∧ t.frame = .desc [] ∧ t.cmdIn = s.cmdIn ∧
      t.respOut = s.respOut ∧ t.takes = s.takes ∧ t.resets = later

/-- R183: a reset forgets the session. Whatever the engine was doing and whatever it held, after the reset
that is due no host can tell one past from another. (When a reset is due is the model's: log entry 6.) -/
def Obligations.ResetForgetsThePast : Prop :=
  ∀ s t : State, s.resets.head? = some 0 → s.resets = t.resets → s.cmdIn = t.cmdIn →
    s.takes = t.takes → s.respOut = t.respOut → OutcomeEquiv (step s) (step t)

/-! ## Invariants and whole-machine rules -/

/-- R195 `P_START`: the reset state meets the invariant. -/
def Obligations.ResetMeetsInvariant : Prop := State.reset.Inv

/-- R23, R68, R195: every step keeps the invariant, from every state that meets it: S is a permutation
while there is a session, and the framing state is one R68 reaches. -/
def Obligations.StepKeepsInvariant : Prop :=
  ∀ s t : State, s.Inv → step s = .next t → t.Inv

/-- R23: along every run from a state that meets the invariant, whatever the host does, each value 0..255
is in exactly one entry of S whenever `VALID = 1`. -/
def Obligations.SessionTableStaysPermutation : Prop :=
  ∀ (s t : State) (n : Nat), s.Inv → runSteps n s = .next t → t.valid = true →
    ∀ v : Byte, ∃! x : Byte, readEntry t.session.table x = v

/-- R170, R196: from a state that meets the invariant no step is refused. -/
def Obligations.SoundStatesAreNeverRefused : Prop :=
  ∀ (s : State) (r : Refusal), s.Inv → step s ≠ .refused r

/-- R26: VALID goes to 1 only by an INIT that completes with `OK`, and to 0 only by a reset. -/
def Obligations.ValidChangesOnlyByInitAndReset : Prop :=
  ∀ s t : State, step s = .next t →
    (s.valid = false → t.valid = true →
      ∃ d key data klen k, s.frame = .exec d key data ∧
        decodeCommand d key data = .ok (.init klen k) ∧ ValidKeyLength klen ∧
        t.frame = .resp [0x00]) ∧
    (s.valid = true → t.valid = false → s.resets.head? = some 0)

/-- R27: only a successful INIT, an APPLY with DLEN > 0 and a session, or a reset changes S, i or j. -/
def Obligations.SessionChangesOnlyByItsCommands : Prop :=
  ∀ s t : State, step s = .next t → t.session ≠ s.session →
    s.resets.head? = some 0 ∨
    ∃ d key data i, s.frame = .exec d key data ∧ decodeCommand d key data = .ok i ∧
      ((∃ klen k, i = .init klen k ∧ ValidKeyLength klen) ∨
        (∃ dlen bs, i = .apply dlen bs ∧ dlen ≠ 0 ∧ s.valid = true))

/-- R36 (with R31, R32): two states no host can tell apart stay so for every step, with the same outcome. No
unspecified value of S, i, j, the scratch context, the scheduling indices or the key buffer is ever
observable, nor any key of an earlier command. -/
def Obligations.UnspecifiedStateIsNeverObservable : Prop :=
  ∀ s t : State, HostEquiv s t → OutcomeEquiv (step s) (step t)

/-- R36: the same for runs of any length: the response streams agree throughout. -/
def Obligations.RunsCannotRevealUnspecifiedState : Prop :=
  ∀ (s t : State) (n : Nat), HostEquiv s t →
    OutcomeEquiv (runSteps n s) (runSteps n t)

/-- R193, R36: two runs of one length that start from states no host can tell apart end together, with one
observation: the response stream, VALID, and S, i and j while there is a session. -/
def Obligations.ObservationDependsOnTheHostsViewOnly : Prop :=
  ∀ (s t u : State) (n : Nat), HostEquiv s t → runSteps n s = .next u →
    ∃ v, runSteps n t = .next v ∧ observation u = observation v

/-- R168, R191: while the engine waits for a byte, or for the host to take one, and a reset is to come but not
due, a step holds the whole state: only the count of steps before that reset goes down. (That a wait is a
step while a reset is to come, and a stop when none is, is the model's choice: log entries 6 and 7.) -/
def Obligations.WaitingHoldsTheWholeState : Prop :=
  ∀ (s : State) (n : Nat) (later : List Nat), s.resets = (n + 1) :: later →
    ((∃ got, s.frame = .desc got ∧ s.cmdIn = []) ∨
      (∃ d got, s.frame = .key d got ∧ got.length < d.klen.toNat ∧ s.cmdIn = []) ∨
      (∃ d key got, s.frame = .data d key got ∧ got.length < d.dlen.toNat ∧ s.cmdIn = []) ∨
      (∃ b left, s.frame = .resp (b :: left) ∧ s.takes = 0)) →
    step s = .next { s with resets := n :: later }
end

