-- ==== Sys2Proof/Laws/State.lean ====
section
/-! SUPPORT. One lemma per field per named update of the state, each true by rfl: proofs about a meaning
rewrite with these and unfold no record update. -/

namespace Sys2Proof.Machine

/-! ### finish -/

@[simp] theorem finish_session (st : Status) (out : List Byte) (s : State) :
    (finish st out s).session = s.session := rfl
@[simp] theorem finish_valid (st : Status) (out : List Byte) (s : State) :
    (finish st out s).valid = s.valid := rfl
@[simp] theorem finish_scratch (st : Status) (out : List Byte) (s : State) :
    (finish st out s).scratch = s.scratch := rfl
@[simp] theorem finish_ki (st : Status) (out : List Byte) (s : State) :
    (finish st out s).ki = s.ki := rfl
@[simp] theorem finish_kj (st : Status) (out : List Byte) (s : State) :
    (finish st out s).kj = s.kj := rfl
@[simp] theorem finish_kbuf (st : Status) (out : List Byte) (s : State) :
    (finish st out s).kbuf = s.kbuf := rfl
@[simp] theorem finish_kl (st : Status) (out : List Byte) (s : State) :
    (finish st out s).kl = s.kl := rfl
@[simp] theorem finish_frame (st : Status) (out : List Byte) (s : State) :
    (finish st out s).frame = .resp (st.code :: out) := rfl
@[simp] theorem finish_cmdIn (st : Status) (out : List Byte) (s : State) :
    (finish st out s).cmdIn = s.cmdIn := rfl
@[simp] theorem finish_takes (st : Status) (out : List Byte) (s : State) :
    (finish st out s).takes = s.takes := rfl
@[simp] theorem finish_respOut (st : Status) (out : List Byte) (s : State) :
    (finish st out s).respOut = s.respOut := rfl
@[simp] theorem finish_resets (st : Status) (out : List Byte) (s : State) :
    (finish st out s).resets = s.resets := rfl
@[simp] theorem finish_draws (st : Status) (out : List Byte) (s : State) :
    (finish st out s).draws = s.draws := rfl

/-! ### raise -/

@[simp] theorem raise_session (e : Status) (data : List Byte) (s : State) :
    (raise e data s).session = s.session := rfl
@[simp] theorem raise_valid (e : Status) (data : List Byte) (s : State) :
    (raise e data s).valid = s.valid := rfl
@[simp] theorem raise_scratch (e : Status) (data : List Byte) (s : State) :
    (raise e data s).scratch = s.scratch := rfl
@[simp] theorem raise_ki (e : Status) (data : List Byte) (s : State) :
    (raise e data s).ki = s.ki := rfl
@[simp] theorem raise_kj (e : Status) (data : List Byte) (s : State) :
    (raise e data s).kj = s.kj := rfl
@[simp] theorem raise_kbuf (e : Status) (data : List Byte) (s : State) :
    (raise e data s).kbuf = s.kbuf := rfl
@[simp] theorem raise_kl (e : Status) (data : List Byte) (s : State) :
    (raise e data s).kl = s.kl := rfl
@[simp] theorem raise_frame (e : Status) (data : List Byte) (s : State) :
    (raise e data s).frame = .resp (e.code :: data) := rfl
@[simp] theorem raise_cmdIn (e : Status) (data : List Byte) (s : State) :
    (raise e data s).cmdIn = s.cmdIn := rfl
@[simp] theorem raise_takes (e : Status) (data : List Byte) (s : State) :
    (raise e data s).takes = s.takes := rfl
@[simp] theorem raise_respOut (e : Status) (data : List Byte) (s : State) :
    (raise e data s).respOut = s.respOut := rfl
@[simp] theorem raise_resets (e : Status) (data : List Byte) (s : State) :
    (raise e data s).resets = s.resets := rfl
@[simp] theorem raise_draws (e : Status) (data : List Byte) (s : State) :
    (raise e data s).draws = s.draws := rfl

/-! ### setValid -/

@[simp] theorem setValid_session (s : State) : (setValid s).session = s.session := rfl
@[simp] theorem setValid_valid (s : State) : (setValid s).valid = true := rfl
@[simp] theorem setValid_scratch (s : State) : (setValid s).scratch = s.scratch := rfl
@[simp] theorem setValid_ki (s : State) : (setValid s).ki = s.ki := rfl
@[simp] theorem setValid_kj (s : State) : (setValid s).kj = s.kj := rfl
@[simp] theorem setValid_kbuf (s : State) : (setValid s).kbuf = s.kbuf := rfl
@[simp] theorem setValid_kl (s : State) : (setValid s).kl = s.kl := rfl
@[simp] theorem setValid_frame (s : State) : (setValid s).frame = s.frame := rfl
@[simp] theorem setValid_cmdIn (s : State) : (setValid s).cmdIn = s.cmdIn := rfl
@[simp] theorem setValid_takes (s : State) : (setValid s).takes = s.takes := rfl
@[simp] theorem setValid_respOut (s : State) : (setValid s).respOut = s.respOut := rfl
@[simp] theorem setValid_resets (s : State) : (setValid s).resets = s.resets := rfl
@[simp] theorem setValid_draws (s : State) : (setValid s).draws = s.draws := rfl

/-! ### loadKey -/

@[simp] theorem loadKey_session (klen : BitVec 9) (key : List Byte) (s : State) :
    (loadKey klen key s).session = s.session := rfl
@[simp] theorem loadKey_valid (klen : BitVec 9) (key : List Byte) (s : State) :
    (loadKey klen key s).valid = s.valid := rfl
@[simp] theorem loadKey_scratch (klen : BitVec 9) (key : List Byte) (s : State) :
    (loadKey klen key s).scratch = s.scratch := rfl
@[simp] theorem loadKey_ki (klen : BitVec 9) (key : List Byte) (s : State) :
    (loadKey klen key s).ki = s.ki := rfl
@[simp] theorem loadKey_kj (klen : BitVec 9) (key : List Byte) (s : State) :
    (loadKey klen key s).kj = s.kj := rfl
@[simp] theorem loadKey_kbuf (klen : BitVec 9) (key : List Byte) (s : State) :
    (loadKey klen key s).kbuf = keyInto s.kbuf key := rfl
@[simp] theorem loadKey_kl (klen : BitVec 9) (key : List Byte) (s : State) :
    (loadKey klen key s).kl = klen := rfl
@[simp] theorem loadKey_frame (klen : BitVec 9) (key : List Byte) (s : State) :
    (loadKey klen key s).frame = s.frame := rfl
@[simp] theorem loadKey_cmdIn (klen : BitVec 9) (key : List Byte) (s : State) :
    (loadKey klen key s).cmdIn = s.cmdIn := rfl
@[simp] theorem loadKey_takes (klen : BitVec 9) (key : List Byte) (s : State) :
    (loadKey klen key s).takes = s.takes := rfl
@[simp] theorem loadKey_respOut (klen : BitVec 9) (key : List Byte) (s : State) :
    (loadKey klen key s).respOut = s.respOut := rfl
@[simp] theorem loadKey_resets (klen : BitVec 9) (key : List Byte) (s : State) :
    (loadKey klen key s).resets = s.resets := rfl
@[simp] theorem loadKey_draws (klen : BitVec 9) (key : List Byte) (s : State) :
    (loadKey klen key s).draws = s.draws := rfl

/-! ### runKsa -/

@[simp] theorem runKsa_session (s : State) : ((runKsa s).2).session = s.session := rfl
@[simp] theorem runKsa_valid (s : State) : ((runKsa s).2).valid = s.valid := rfl
@[simp] theorem runKsa_scratch (s : State) : ((runKsa s).2).scratch = s.scratch := rfl
@[simp] theorem runKsa_ki (s : State) : ((runKsa s).2).ki = 256 := rfl
@[simp] theorem runKsa_kj (s : State) : ((runKsa s).2).kj = (ksa s.kbuf s.kl).2 := rfl
@[simp] theorem runKsa_kbuf (s : State) : ((runKsa s).2).kbuf = s.kbuf := rfl
@[simp] theorem runKsa_kl (s : State) : ((runKsa s).2).kl = s.kl := rfl
@[simp] theorem runKsa_frame (s : State) : ((runKsa s).2).frame = s.frame := rfl
@[simp] theorem runKsa_cmdIn (s : State) : ((runKsa s).2).cmdIn = s.cmdIn := rfl
@[simp] theorem runKsa_takes (s : State) : ((runKsa s).2).takes = s.takes := rfl
@[simp] theorem runKsa_respOut (s : State) : ((runKsa s).2).respOut = s.respOut := rfl
@[simp] theorem runKsa_resets (s : State) : ((runKsa s).2).resets = s.resets := rfl
@[simp] theorem runKsa_draws (s : State) : ((runKsa s).2).draws = s.draws := rfl
@[simp] theorem runKsa_table (s : State) : (runKsa s).1 = (ksa s.kbuf s.kl).1 := rfl

/-! ### retireKey -/

@[simp] theorem retireKey_session (s : State) : (retireKey s).session = s.session := rfl
@[simp] theorem retireKey_valid (s : State) : (retireKey s).valid = s.valid := rfl
@[simp] theorem retireKey_scratch (s : State) : (retireKey s).scratch = s.scratch := rfl
@[simp] theorem retireKey_ki (s : State) : (retireKey s).ki = Config.deadKi s.draws := rfl
@[simp] theorem retireKey_kj (s : State) : (retireKey s).kj = Config.deadKj s.draws := rfl
@[simp] theorem retireKey_kbuf (s : State) : (retireKey s).kbuf = Config.deadKbuf s.draws := rfl
@[simp] theorem retireKey_kl (s : State) : (retireKey s).kl = Config.deadKl s.draws := rfl
@[simp] theorem retireKey_frame (s : State) : (retireKey s).frame = s.frame := rfl
@[simp] theorem retireKey_cmdIn (s : State) : (retireKey s).cmdIn = s.cmdIn := rfl
@[simp] theorem retireKey_takes (s : State) : (retireKey s).takes = s.takes := rfl
@[simp] theorem retireKey_respOut (s : State) : (retireKey s).respOut = s.respOut := rfl
@[simp] theorem retireKey_resets (s : State) : (retireKey s).resets = s.resets := rfl
@[simp] theorem retireKey_draws (s : State) : (retireKey s).draws = s.draws + 1 := rfl

/-! ### retireScratch -/

@[simp] theorem retireScratch_session (s : State) : (retireScratch s).session = s.session := rfl
@[simp] theorem retireScratch_valid (s : State) : (retireScratch s).valid = s.valid := rfl
@[simp] theorem retireScratch_scratch (s : State) :
    (retireScratch s).scratch = ⟨Config.deadT s.draws, Config.deadTi s.draws, Config.deadTj s.draws⟩ := rfl
@[simp] theorem retireScratch_ki (s : State) : (retireScratch s).ki = Config.deadKi s.draws := rfl
@[simp] theorem retireScratch_kj (s : State) : (retireScratch s).kj = Config.deadKj s.draws := rfl
@[simp] theorem retireScratch_kbuf (s : State) :
    (retireScratch s).kbuf = Config.deadKbuf s.draws := rfl
@[simp] theorem retireScratch_kl (s : State) : (retireScratch s).kl = Config.deadKl s.draws := rfl
@[simp] theorem retireScratch_frame (s : State) : (retireScratch s).frame = s.frame := rfl
@[simp] theorem retireScratch_cmdIn (s : State) : (retireScratch s).cmdIn = s.cmdIn := rfl
@[simp] theorem retireScratch_takes (s : State) : (retireScratch s).takes = s.takes := rfl
@[simp] theorem retireScratch_respOut (s : State) : (retireScratch s).respOut = s.respOut := rfl
@[simp] theorem retireScratch_resets (s : State) : (retireScratch s).resets = s.resets := rfl
@[simp] theorem retireScratch_draws (s : State) : (retireScratch s).draws = s.draws + 1 := rfl

/-! ### tick -/

@[simp] theorem tick_session (s : State) : (tick s).session = s.session := rfl
@[simp] theorem tick_valid (s : State) : (tick s).valid = s.valid := rfl
@[simp] theorem tick_scratch (s : State) : (tick s).scratch = s.scratch := rfl
@[simp] theorem tick_ki (s : State) : (tick s).ki = s.ki := rfl
@[simp] theorem tick_kj (s : State) : (tick s).kj = s.kj := rfl
@[simp] theorem tick_kbuf (s : State) : (tick s).kbuf = s.kbuf := rfl
@[simp] theorem tick_kl (s : State) : (tick s).kl = s.kl := rfl
@[simp] theorem tick_frame (s : State) : (tick s).frame = s.frame := rfl
@[simp] theorem tick_cmdIn (s : State) : (tick s).cmdIn = s.cmdIn := rfl
@[simp] theorem tick_takes (s : State) : (tick s).takes = s.takes := rfl
@[simp] theorem tick_respOut (s : State) : (tick s).respOut = s.respOut := rfl
@[simp] theorem tick_resets (s : State) : (tick s).resets = countDown s.resets := rfl
@[simp] theorem tick_draws (s : State) : (tick s).draws = s.draws := rfl

/-! ### resetEngine -/

@[simp] theorem resetEngine_session (s : State) : (resetEngine s).session = ⟨zeroTable, 0, 0⟩ := rfl
@[simp] theorem resetEngine_valid (s : State) : (resetEngine s).valid = false := rfl
@[simp] theorem resetEngine_scratch (s : State) : (resetEngine s).scratch = ⟨zeroTable, 0, 0⟩ := rfl
@[simp] theorem resetEngine_ki (s : State) : (resetEngine s).ki = 0 := rfl
@[simp] theorem resetEngine_kj (s : State) : (resetEngine s).kj = 0 := rfl
@[simp] theorem resetEngine_kbuf (s : State) : (resetEngine s).kbuf = zeroTable := rfl
@[simp] theorem resetEngine_kl (s : State) : (resetEngine s).kl = 0 := rfl
@[simp] theorem resetEngine_frame (s : State) : (resetEngine s).frame = .desc [] := rfl
@[simp] theorem resetEngine_cmdIn (s : State) : (resetEngine s).cmdIn = s.cmdIn := rfl
@[simp] theorem resetEngine_takes (s : State) : (resetEngine s).takes = s.takes := rfl
@[simp] theorem resetEngine_respOut (s : State) : (resetEngine s).respOut = s.respOut := rfl
@[simp] theorem resetEngine_resets (s : State) : (resetEngine s).resets = s.resets.tail := rfl
@[simp] theorem resetEngine_draws (s : State) : (resetEngine s).draws = s.draws := rfl

/-! ### withFetchWord -/

@[simp] theorem withFetchWord_session (s : State) (nbits w : Nat) :
    (s.withFetchWord nbits w).session = s.session := rfl
@[simp] theorem withFetchWord_valid (s : State) (nbits w : Nat) :
    (s.withFetchWord nbits w).valid = s.valid := rfl
@[simp] theorem withFetchWord_scratch (s : State) (nbits w : Nat) :
    (s.withFetchWord nbits w).scratch = s.scratch := rfl
@[simp] theorem withFetchWord_ki (s : State) (nbits w : Nat) :
    (s.withFetchWord nbits w).ki = s.ki := rfl
@[simp] theorem withFetchWord_kj (s : State) (nbits w : Nat) :
    (s.withFetchWord nbits w).kj = s.kj := rfl
@[simp] theorem withFetchWord_kbuf (s : State) (nbits w : Nat) :
    (s.withFetchWord nbits w).kbuf = s.kbuf := rfl
@[simp] theorem withFetchWord_kl (s : State) (nbits w : Nat) :
    (s.withFetchWord nbits w).kl = s.kl := rfl
@[simp] theorem withFetchWord_frame (s : State) (nbits w : Nat) :
    (s.withFetchWord nbits w).frame = tableFrame nbits w := rfl
@[simp] theorem withFetchWord_cmdIn (s : State) (nbits w : Nat) :
    (s.withFetchWord nbits w).cmdIn = s.cmdIn := rfl
@[simp] theorem withFetchWord_takes (s : State) (nbits w : Nat) :
    (s.withFetchWord nbits w).takes = s.takes := rfl
@[simp] theorem withFetchWord_respOut (s : State) (nbits w : Nat) :
    (s.withFetchWord nbits w).respOut = s.respOut := rfl
@[simp] theorem withFetchWord_resets (s : State) (nbits w : Nat) :
    (s.withFetchWord nbits w).resets = [] := rfl
@[simp] theorem withFetchWord_draws (s : State) (nbits w : Nat) :
    (s.withFetchWord nbits w).draws = s.draws := rfl

/-! ### startCursors -/

@[simp] theorem startCursors_table (t : Table) : (startCursors t).table = t := rfl
@[simp] theorem startCursors_i (t : Table) : (startCursors t).i = 0 := rfl
@[simp] theorem startCursors_j (t : Table) : (startCursors t).j = 0 := rfl

end Sys2Proof.Machine
end

