-- ==== Sys2Proof/Laws/Encoding.lean ====
section
/-! SUPPORT. The fields of a built descriptor, its stream bytes, and the lengths of a command's parts
(R47, R60, R61, R71). -/

namespace Sys2Proof

/-! ### Fields -/

section
variable (dlen : BitVec 32) (rsv1 : BitVec 15) (klen : BitVec 9) (rsv0 op : BitVec 4)

@[simp] theorem op_build : (Descriptor.build dlen rsv1 klen rsv0 op).op = op := by
  ext i hi
  simp only [Descriptor.op, Descriptor.build, BitVec.getElem_extractLsb', BitVec.getLsbD_cast,
    BitVec.getLsbD_append]
  split_ifs <;> simp_all

@[simp] theorem rsv0_build : (Descriptor.build dlen rsv1 klen rsv0 op).rsv0 = rsv0 := by
  ext i hi
  simp only [Descriptor.rsv0, Descriptor.build, BitVec.getElem_extractLsb', BitVec.getLsbD_cast,
    BitVec.getLsbD_append]
  split_ifs <;> simp_all

@[simp] theorem klen_build : (Descriptor.build dlen rsv1 klen rsv0 op).klen = klen := by
  ext i hi
  simp only [Descriptor.klen, Descriptor.build, BitVec.getElem_extractLsb', BitVec.getLsbD_cast,
    BitVec.getLsbD_append]
  split_ifs <;> simp_all <;> grind

@[simp] theorem rsv1_build : (Descriptor.build dlen rsv1 klen rsv0 op).rsv1 = rsv1 := by
  ext i hi
  simp only [Descriptor.rsv1, Descriptor.build, BitVec.getElem_extractLsb', BitVec.getLsbD_cast,
    BitVec.getLsbD_append]
  split_ifs <;> simp_all <;> grind

@[simp] theorem dlen_build : (Descriptor.build dlen rsv1 klen rsv0 op).dlen = dlen := by
  ext i hi
  simp only [Descriptor.dlen, Descriptor.build, BitVec.getElem_extractLsb', BitVec.getLsbD_cast,
    BitVec.getLsbD_append]
  split_ifs <;> simp_all <;> grind

end

/-- A descriptor is what its five fields are (R61). -/
theorem build_fields (d : Descriptor) :
    Descriptor.build d.dlen d.rsv1 d.klen d.rsv0 d.op = d := by
  refine BitVec.eq_of_getLsbD_eq fun i hi => ?_
  simp only [Descriptor.build, Descriptor.op, Descriptor.rsv0, Descriptor.klen, Descriptor.rsv1,
    Descriptor.dlen, BitVec.getLsbD_cast, BitVec.getLsbD_append, BitVec.getLsbD_extractLsb']
  grind

/-! ### Stream bytes -/

@[simp] theorem toBytes_length (d : Descriptor) : d.toBytes.length = 8 := by
  simp [Descriptor.toBytes, Config.descBytes]

/-- Stream byte k of a descriptor, bit by bit (R47). -/
theorem toBytes_getElem (d : Descriptor) (k : Nat) (hk : k < 8) :
    d.toBytes[k]? = some (d.extractLsb' (8 * k) 8) := by
  simp [Descriptor.toBytes, Config.descBytes, hk]

/-- One byte more at the head of the stream (R47): it carries the lowest bits. -/
theorem ofBytes_cons_getLsbD (b : Byte) (bs : List Byte) (n : Nat) (hn : n < 64) :
    (Descriptor.ofBytes (b :: bs)).getLsbD n =
      if n < 8 then b.getLsbD n else (Descriptor.ofBytes bs).getLsbD (n - 8) := by
  simp only [Descriptor.ofBytes, BitVec.getLsbD_or, BitVec.getLsbD_setWidth,
    BitVec.getLsbD_shiftLeft]
  split_ifs with h
  · simp [h, hn]
  · simp [h, hn, BitVec.getLsbD_of_ge b n (by omega)]

end Sys2Proof
end

