-- ==== Sys2Proof/Laws/Table.lean ====
section
/-! SUPPORT. The laws of the 256-entry tables: read after write, the swap, the identity and the key buffer,
and that a swap keeps a permutation a permutation (R11, R41, R92, R94). Proofs about the KSA and the
PRGA read tables through these and never open `Vector`. -/

namespace Sys2Proof.Machine

/-- A table is what its entries are. -/
theorem table_ext {t u : Table} (h : ∀ x, readEntry t x = readEntry u x) : t = u := by
  refine Vector.ext fun n hn => ?_
  have := h (BitVec.ofNat 8 n)
  simpa [readEntry, Vector.get, Nat.mod_eq_of_lt hn] using this

theorem readEntry_eq_getElem (t : Table) (x : Byte) : readEntry t x = t[x.toNat]'x.isLt := rfl

theorem readEntry_writeEntry (t : Table) (x y v : Byte) :
    readEntry (writeEntry t x v) y = if y = x then v else readEntry t y := by
  simp only [readEntry_eq_getElem, writeEntry, Vector.getElem_set]
  simp only [BitVec.toNat_inj, eq_comm]

/-- A read after a write to the same entry gives the value written. -/
theorem readEntry_writeEntry_same (t : Table) (x v : Byte) :
    readEntry (writeEntry t x v) x = v := by
  simp [readEntry_writeEntry]

/-- A write leaves every other entry alone. -/
theorem readEntry_writeEntry_other (t : Table) {x y : Byte} (v : Byte) (h : y ≠ x) :
    readEntry (writeEntry t x v) y = readEntry t y := by
  simp [readEntry_writeEntry, h]

/-- Everything a swap does (R11): the two entries change places and no other changes. -/
theorem readEntry_swapEntries (t : Table) (a b x : Byte) :
    readEntry (swapEntries t a b) x = refSwap (readEntry t) a b x := by
  unfold swapEntries refSwap
  simp only [readEntry_writeEntry]
  split_ifs <;> simp_all

theorem readEntry_swapEntries_left (t : Table) (a b : Byte) :
    readEntry (swapEntries t a b) a = readEntry t b := by
  simp [readEntry_swapEntries, refSwap]

theorem readEntry_swapEntries_right (t : Table) (a b : Byte) :
    readEntry (swapEntries t a b) b = readEntry t a := by
  simp only [readEntry_swapEntries, refSwap]
  split_ifs with h <;> simp_all

/-- When a = b a swap leaves the table unchanged (R11). -/
theorem swapEntries_same (t : Table) (a : Byte) : swapEntries t a a = t :=
  table_ext fun x => by simp only [readEntry_swapEntries, refSwap]; split_ifs <;> simp_all

theorem readEntry_identityTable (x : Byte) : readEntry identityTable x = x := by
  unfold identityTable
  simp [readEntry_eq_getElem]

theorem readEntry_keyInto (kbuf : Table) (key : List Byte) (x : Byte) :
    readEntry (keyInto kbuf key) x = key.getD x.toNat (readEntry kbuf x) := by
  unfold keyInto
  simp only [readEntry_eq_getElem, Vector.getElem_ofFn]
  rfl

/-! ### Permutations -/

/-- Exchanging two indices twice gives every index back. -/
theorem refSwap_id_involutive (a b x : Byte) : refSwap id a b (refSwap id a b x) = x := by
  unfold refSwap
  split_ifs <;> simp_all

/-- The entry a swap brings to index `x`, by the index it comes from. -/
theorem readEntry_swapEntries_index (t : Table) (a b x : Byte) :
    readEntry (swapEntries t a b) x = readEntry t (refSwap id a b x) := by
  rw [readEntry_swapEntries]
  unfold refSwap
  split_ifs <;> simp_all

theorem identityTable_isPermutation : IsPermutation identityTable := fun v =>
  ⟨v, readEntry_identityTable v, fun y hy => by simpa [readEntry_identityTable] using hy⟩

/-- A swap keeps a permutation a permutation (R94, R115). -/
theorem swapEntries_isPermutation {t : Table} (h : IsPermutation t) (a b : Byte) :
    IsPermutation (swapEntries t a b) := by
  intro v
  obtain ⟨x, hx, unique⟩ := h v
  refine ⟨refSwap id a b x, ?_, fun y hy => ?_⟩
  · show readEntry (swapEntries t a b) (refSwap id a b x) = v
    rw [readEntry_swapEntries_index, refSwap_id_involutive]
    exact hx
  · have hy' : readEntry t (refSwap id a b y) = v := by
      rw [← readEntry_swapEntries_index]; exact hy
    rw [← unique _ hy', refSwap_id_involutive]

end Sys2Proof.Machine
end

