-- ==== Sys2Proof/Laws/Keystream.lean ====
section
/-! SUPPORT. What one KSA iteration and one PRGA step do, said against the yardstick of Safety.lean, and the
laws of the keystream loop (R93, R112, R114, R117, R118, R120). -/

namespace Sys2Proof.Machine

/-! ### The key scheduling algorithm -/

/-- The key byte an iteration reads is the payload's own byte (R42), whatever KBUF held before. -/
theorem keyByte_keyInto (kbuf : Table) (key : List Byte) (kl : BitVec 9) (ki : Nat)
    (hlen : key.length = kl.toNat) (hpos : 0 < key.length) (hmax : key.length ≤ 256) :
    keyByte (keyInto kbuf key) kl ki = key.getD (ki % key.length) 0 := by
  have hlt : ki % key.length < key.length := Nat.mod_lt _ hpos
  have h : keyByte (keyInto kbuf key) kl ki
      = readEntry (keyInto kbuf key) (BitVec.ofNat 8 (ki % key.length)) := by
    rw [hlen]; rfl
  rw [h, readEntry_keyInto, BitVec.toNat_ofNat, Nat.mod_eq_of_lt (by omega)]
  simp [List.getD_eq_getElem?_getD, hlt]

/-- One iteration of R93 keeps a permutation a permutation. -/
theorem ksaStep_isPermutation (kbuf : Table) (kl : BitVec 9) (ki : Nat) {q : Table × Byte}
    (h : IsPermutation q.1) : IsPermutation (ksaStep kbuf kl ki q).1 :=
  swapEntries_isPermutation h _ _

/-- Everything one iteration of R93 does to the table. -/
theorem readEntry_ksaStep (kbuf : Table) (kl : BitVec 9) (ki : Nat) (q : Table × Byte) (x : Byte) :
    readEntry (ksaStep kbuf kl ki q).1 x =
      refSwap (readEntry q.1) (BitVec.ofNat 8 ki) (ksaStep kbuf kl ki q).2 x :=
  readEntry_swapEntries _ _ _ _

/-- What one iteration of R93 does to `kj`. -/
theorem ksaStep_kj (kbuf : Table) (kl : BitVec 9) (ki : Nat) (q : Table × Byte) :
    (ksaStep kbuf kl ki q).2 =
      q.2 + readEntry q.1 (BitVec.ofNat 8 ki) + keyByte kbuf kl ki := rfl

@[simp] theorem ksaRun_zero (kbuf : Table) (kl : BitVec 9) :
    ksaRun kbuf kl 0 = (identityTable, 0) := rfl

@[simp] theorem ksaRun_succ (kbuf : Table) (kl : BitVec 9) (n : Nat) :
    ksaRun kbuf kl (n + 1) = ksaStep kbuf kl n (ksaRun kbuf kl n) := rfl

/-- `KSA` is its 256 iterations: the equation to rewrite with, since unfolding them all is long. -/
theorem ksa_eq_ksaRun (kbuf : Table) (kl : BitVec 9) : ksa kbuf kl = ksaRun kbuf kl 256 := by
  unfold ksa
  rfl

/-- The machine's KSA and the yardstick's agree iteration by iteration, for a key of at most 256 bytes and
whatever KBUF held before the key was copied into it. -/
theorem ksaRun_eq_refKsa (kbuf : Table) (key : List Byte) (kl : BitVec 9)
    (hlen : key.length = kl.toNat) (hpos : 0 < key.length) (hmax : key.length ≤ 256) (n : Nat) :
    readEntry (ksaRun (keyInto kbuf key) kl n).1 = (refKsa key n).1 ∧
      (ksaRun (keyInto kbuf key) kl n).2 = (refKsa key n).2 := by
  induction n with
  | zero => exact ⟨funext readEntry_identityTable, rfl⟩
  | succ n ih =>
    obtain ⟨hX, hj⟩ := ih
    have hkj : (ksaRun (keyInto kbuf key) kl (n + 1)).2 = (refKsa key (n + 1)).2 := by
      rw [ksaRun_succ, ksaStep_kj, hX, hj, keyByte_keyInto kbuf key kl n hlen hpos hmax]
      rfl
    refine ⟨funext fun x => ?_, hkj⟩
    rw [ksaRun_succ, readEntry_ksaStep, ← ksaRun_succ, hkj, hX]
    rfl

/-! ### The PRGA step -/

/-- Everything a PRGA step does to the state (R112). -/
theorem prgaStep_ref (p : PermState) : (prgaStep p).1.ref = refNext p.ref := by
  simp only [PermState.ref, refNext, prgaStep, RefState.mk.injEq, and_self, and_true]
  exact funext fun x => readEntry_swapEntries _ _ _ _

/-- The byte a PRGA step returns (R112 step 4): it is read in the state after the step (R113). -/
theorem prgaStep_byte (p : PermState) : (prgaStep p).2 = refByte p.ref 0 := by
  show readEntry (prgaStep p).1.table (readEntry (prgaStep p).1.table (prgaStep p).1.i +
    readEntry (prgaStep p).1.table (prgaStep p).1.j) = _
  show (prgaStep p).1.ref.X ((prgaStep p).1.ref.X (prgaStep p).1.ref.x +
    (prgaStep p).1.ref.X (prgaStep p).1.ref.y) = _
  rw [prgaStep_ref]
  rfl

/-- A PRGA step keeps a permutation a permutation (R115). -/
theorem prgaStep_isPermutation {p : PermState} (h : IsPermutation p.table) :
    IsPermutation (prgaStep p).1.table :=
  swapEntries_isPermutation h _ _

/-- The yardstick's state after one step more, counted from the front. -/
theorem refAfter_next (p : RefState) (n : Nat) :
    refAfter (refNext p) n = refAfter p (n + 1) := by
  induction n with
  | zero => rfl
  | succ n ih => rw [refAfter, ih]; rfl

/-- The keystream from one step on is the keystream without its first byte. -/
theorem refByte_next (p : RefState) (k : Nat) : refByte (refNext p) k = refByte p (k + 1) := by
  simp only [refByte, refAfter_next]

/-! ### The keystream loop -/

@[simp] theorem applyKeystream_nil (p : PermState) : applyKeystream p [] = (p, []) := rfl

theorem applyKeystream_cons (p : PermState) (b : Byte) (bs : List Byte) :
    applyKeystream p (b :: bs) =
      ((applyKeystream (prgaStep p).1 bs).1,
        (b ^^^ (prgaStep p).2) :: (applyKeystream (prgaStep p).1 bs).2) := rfl

/-- No byte is skipped or repeated (R120). -/
@[simp] theorem applyKeystream_length (p : PermState) (data : List Byte) :
    (applyKeystream p data).2.length = data.length := by
  induction data generalizing p with
  | nil => rfl
  | cons b bs ih => simp [applyKeystream_cons, ih]

/-- The loop carries its state from byte to byte alike inside one buffer and across two. -/
theorem applyKeystream_append (p : PermState) (a b : List Byte) :
    applyKeystream p (a ++ b) =
      ((applyKeystream (applyKeystream p a).1 b).1,
        (applyKeystream p a).2 ++ (applyKeystream (applyKeystream p a).1 b).2) := by
  induction a generalizing p with
  | nil => rfl
  | cons x xs ih => simp [applyKeystream_cons, ih]

/-- The state after the loop is the state after that many PRGA steps: the data plays no part. -/
theorem applyKeystream_ref (p : PermState) (data : List Byte) :
    (applyKeystream p data).1.ref = refAfter p.ref data.length := by
  induction data generalizing p with
  | nil => rfl
  | cons b bs ih => rw [applyKeystream_cons, ih, prgaStep_ref, refAfter_next]; rfl

/-- Every data byte meets the keystream byte of its own step. -/
theorem applyKeystream_getElem (p : PermState) (data : List Byte) (k : Nat) (h : k < data.length) :
    (applyKeystream p data).2[k]? = some (data[k] ^^^ refByte p.ref k) := by
  induction data generalizing p k with
  | nil => simp at h
  | cons b bs ih =>
    rw [applyKeystream_cons]
    cases k with
    | zero => simp [prgaStep_byte]
    | succ k =>
      rw [List.getElem?_cons_succ, ih _ k (by simpa using h), prgaStep_ref, refByte_next]
      rfl

/-- A machine state is what the yardstick reads in it. -/
theorem permState_ext_ref {p q : PermState} (h : p.ref = q.ref) : p = q := by
  obtain ⟨t, i, j⟩ := p
  obtain ⟨u, i', j'⟩ := q
  simp only [PermState.ref, RefState.mk.injEq] at h
  obtain ⟨hX, rfl, rfl⟩ := h
  rw [table_ext (congrFun hX)]

/-- The loop keeps a permutation a permutation (R115). -/
theorem applyKeystream_isPermutation {p : PermState} (h : IsPermutation p.table)
    (data : List Byte) : IsPermutation (applyKeystream p data).1.table := by
  induction data generalizing p with
  | nil => exact h
  | cons b bs ih => exact ih (prgaStep_isPermutation h)

end Sys2Proof.Machine
end

