-- ==== Sys2Proof/Laws/Exec.lean ====
section
/-! SUPPORT. What the operand checks say, what each meaning answers in each of its cases, and everything a
step can do, said once: proofs about steps cite these and unfold no meaning again. -/

namespace Sys2Proof.Machine

/-! ### Operand checks -/

@[simp] theorem keyFits_iff (klen : BitVec 9) (key : List Byte) :
    keyFits klen key = true ↔ key.length = klen.toNat := by
  simp [keyFits]

@[simp] theorem dataFits_iff (dlen : BitVec 32) (data : List Byte) :
    dataFits dlen data = true ↔ data.length = dlen.toNat := by
  simp [dataFits]

@[simp] theorem keyLengthOk_iff (klen : BitVec 9) :
    keyLengthOk klen = true ↔ ValidKeyLength klen := by
  exact decide_eq_true_iff

/-! ### The meanings, case by case -/

/-- The session a key is scheduled into (R92, R93, R95), by way of the key buffer. -/
def scheduledSession (kbuf : Table) (klen : BitVec 9) (key : List Byte) : PermState :=
  startCursors (ksa (keyInto kbuf key) klen).1

/-- The state a successful INIT leaves. -/
def initState (klen : BitVec 9) (key : List Byte) (s : State) : State :=
  finish .ok [] (retireKey
    { s with session := scheduledSession s.kbuf klen key, valid := true })

/-- The state a successful APPLY leaves. -/
def applyState (data : List Byte) (s : State) : State :=
  finish .ok (applyKeystream s.session data).2
    { s with session := (applyKeystream s.session data).1 }

/-- The state a successful APPLY_STATIC leaves. -/
def applyStaticState (klen : BitVec 9) (key data : List Byte) (s : State) : State :=
  finish .ok (applyKeystream (scheduledSession s.kbuf klen key) data).2 (retireScratch s)

/-! ### The states a successful command leaves, field by field (the working registers of R30 to R32 hold
free values, of which nothing is said) -/

@[simp] theorem initState_session (klen : BitVec 9) (key : List Byte) (s : State) :
    (initState klen key s).session = scheduledSession s.kbuf klen key := rfl
@[simp] theorem initState_valid (klen : BitVec 9) (key : List Byte) (s : State) :
    (initState klen key s).valid = true := rfl
@[simp] theorem initState_scratch (klen : BitVec 9) (key : List Byte) (s : State) :
    (initState klen key s).scratch = s.scratch := rfl
@[simp] theorem initState_frame (klen : BitVec 9) (key : List Byte) (s : State) :
    (initState klen key s).frame = .resp [0x00] := rfl
@[simp] theorem initState_cmdIn (klen : BitVec 9) (key : List Byte) (s : State) :
    (initState klen key s).cmdIn = s.cmdIn := rfl
@[simp] theorem initState_takes (klen : BitVec 9) (key : List Byte) (s : State) :
    (initState klen key s).takes = s.takes := rfl
@[simp] theorem initState_respOut (klen : BitVec 9) (key : List Byte) (s : State) :
    (initState klen key s).respOut = s.respOut := rfl
@[simp] theorem initState_resets (klen : BitVec 9) (key : List Byte) (s : State) :
    (initState klen key s).resets = s.resets := rfl
@[simp] theorem initState_draws (klen : BitVec 9) (key : List Byte) (s : State) :
    (initState klen key s).draws = s.draws + 1 := rfl

@[simp] theorem applyState_session (data : List Byte) (s : State) :
    (applyState data s).session = (applyKeystream s.session data).1 := rfl
@[simp] theorem applyState_valid (data : List Byte) (s : State) :
    (applyState data s).valid = s.valid := rfl
@[simp] theorem applyState_scratch (data : List Byte) (s : State) :
    (applyState data s).scratch = s.scratch := rfl
@[simp] theorem applyState_ki (data : List Byte) (s : State) :
    (applyState data s).ki = s.ki := rfl
@[simp] theorem applyState_kj (data : List Byte) (s : State) :
    (applyState data s).kj = s.kj := rfl
@[simp] theorem applyState_kl (data : List Byte) (s : State) :
    (applyState data s).kl = s.kl := rfl
@[simp] theorem applyState_kbuf (data : List Byte) (s : State) :
    (applyState data s).kbuf = s.kbuf := rfl
@[simp] theorem applyState_frame (data : List Byte) (s : State) :
    (applyState data s).frame = .resp (0x00 :: (applyKeystream s.session data).2) := rfl
@[simp] theorem applyState_cmdIn (data : List Byte) (s : State) :
    (applyState data s).cmdIn = s.cmdIn := rfl
@[simp] theorem applyState_takes (data : List Byte) (s : State) :
    (applyState data s).takes = s.takes := rfl
@[simp] theorem applyState_respOut (data : List Byte) (s : State) :
    (applyState data s).respOut = s.respOut := rfl
@[simp] theorem applyState_resets (data : List Byte) (s : State) :
    (applyState data s).resets = s.resets := rfl
@[simp] theorem applyState_draws (data : List Byte) (s : State) :
    (applyState data s).draws = s.draws := rfl

@[simp] theorem applyStaticState_session (klen : BitVec 9) (key data : List Byte) (s : State) :
    (applyStaticState klen key data s).session = s.session := rfl
@[simp] theorem applyStaticState_valid (klen : BitVec 9) (key data : List Byte) (s : State) :
    (applyStaticState klen key data s).valid = s.valid := rfl
@[simp] theorem applyStaticState_frame (klen : BitVec 9) (key data : List Byte) (s : State) :
    (applyStaticState klen key data s).frame = .resp (0x00 :: (applyKeystream (scheduledSession s.kbuf klen key) data).2) := rfl
@[simp] theorem applyStaticState_cmdIn (klen : BitVec 9) (key data : List Byte) (s : State) :
    (applyStaticState klen key data s).cmdIn = s.cmdIn := rfl
@[simp] theorem applyStaticState_takes (klen : BitVec 9) (key data : List Byte) (s : State) :
    (applyStaticState klen key data s).takes = s.takes := rfl
@[simp] theorem applyStaticState_respOut (klen : BitVec 9) (key data : List Byte) (s : State) :
    (applyStaticState klen key data s).respOut = s.respOut := rfl
@[simp] theorem applyStaticState_resets (klen : BitVec 9) (key data : List Byte) (s : State) :
    (applyStaticState klen key data s).resets = s.resets := rfl
@[simp] theorem applyStaticState_draws (klen : BitVec 9) (key data : List Byte) (s : State) :
    (applyStaticState klen key data s).draws = s.draws + 1 := rfl

/-! ### Pending responses -/

theorem pendingResponse_of_frame {s : State} {r : List Byte} (h : s.frame = .resp r) :
    pendingResponse s = some r := by
  rw [pendingResponse, h]

@[simp] theorem pendingResponse_finish (st : Status) (out : List Byte) (s : State) :
    pendingResponse (finish st out s) = some (st.code :: out) := rfl

@[simp] theorem pendingResponse_initState (klen : BitVec 9) (key : List Byte) (s : State) :
    pendingResponse (initState klen key s) = some [0x00] := rfl

@[simp] theorem pendingResponse_applyState (data : List Byte) (s : State) :
    pendingResponse (applyState data s) =
      some (0x00 :: (applyKeystream s.session data).2) := rfl

@[simp] theorem pendingResponse_applyStaticState (klen : BitVec 9) (key data : List Byte)
    (s : State) : pendingResponse (applyStaticState klen key data s) =
      some (0x00 :: (applyKeystream (scheduledSession s.kbuf klen key) data).2) := rfl

/-! ### What each meaning answers -/

/-- Everything INIT answers. -/
theorem execInit_eq (klen : BitVec 9) (key : List Byte) (s : State) :
    execInit klen key s =
      if key.length = klen.toNat then
        if ValidKeyLength klen then .next (initState klen key s)
        else .next (finish .errKeyLength [] s)
      else .refused .payloadMismatch := by
  simp only [execInit, Bool.not_eq_true', ← Bool.not_eq_true, ite_not, keyFits_iff, keyLengthOk_iff]
  rfl

/-- Everything APPLY answers. -/
theorem execApply_eq (dlen : BitVec 32) (data : List Byte) (s : State) :
    execApply dlen data s =
      if data.length = dlen.toNat then
        if s.valid = true then .next (applyState data s)
        else .next (finish .errNoSession data s)
      else .refused .payloadMismatch := by
  simp only [execApply, Bool.not_eq_true', ← Bool.not_eq_true, ite_not, dataFits_iff]
  rfl

/-- Everything APPLY_STATIC answers. -/
theorem execApplyStatic_eq (klen : BitVec 9) (dlen : BitVec 32) (key data : List Byte)
    (s : State) :
    execApplyStatic klen dlen key data s =
      if key.length = klen.toNat ∧ data.length = dlen.toNat then
        if ValidKeyLength klen then .next (applyStaticState klen key data s)
        else .next (finish .errKeyLength data s)
      else .refused .payloadMismatch := by
  simp only [execApplyStatic, Bool.not_eq_true', ← Bool.not_eq_true, ite_not, Bool.and_eq_true,
    keyFits_iff, dataFits_iff, keyLengthOk_iff]
  rfl

/-- Everything an illegal command is answered with. -/
theorem execIllegal_eq (d : Descriptor) (key data : List Byte) (s : State) :
    execIllegal d key data s =
      if key.length = d.klen.toNat ∧ data.length = d.dlen.toNat then
        .next (finish .errIllegalCommand data s)
      else .refused .payloadMismatch := by
  simp only [execIllegal, Bool.not_eq_true', ← Bool.not_eq_true, ite_not, Bool.and_eq_true, keyFits_iff,
    dataFits_iff]
  rfl

end Sys2Proof.Machine
end

