-- ==== Sys2Proof/Laws/Packed.lean ====
section
/-! SUPPORT. A table packed into one number, entry x in bits `[8x+7:8x]`, on which the kernel evaluates the KSA
and the PRGA in no time, with the proof that it says what the machine's own operations say. It is there
so that the tests can hold the machine against the spec's vectors (`95_test_vectors.md`). -/

namespace Sys2Proof.Machine

/-- Entry `x` of a packed table. -/
def packedRead (T x : Nat) : Nat := (T >>> (8 * x)) % 2 ^ 8

/-- The swap on a packed table: both entries take the bits in which they differ. -/
def packedSwap (T a b : Nat) : Nat :=
  T ^^^ ((packedRead T a ^^^ packedRead T b) <<< (8 * a)) ^^^
    ((packedRead T a ^^^ packedRead T b) <<< (8 * b))

/-- The first `n` entries of the identity table, packed. -/
def packedIdentity : Nat → Nat
  | 0 => 0
  | n + 1 => packedIdentity n + n <<< (8 * n)

/-- R93 on a packed table. -/
def packedKsa (key : List Byte) : Nat → Nat × Nat
  | 0 => (packedIdentity 256, 0)
  | n + 1 =>
    let q := packedKsa key n
    let kj := (q.2 + packedRead q.1 n + (key.getD (n % key.length) 0).toNat) % 2 ^ 8
    (packedSwap q.1 n kj, kj)

/-- The keystream loop of R112 and R114 on a packed table. -/
def packedStream (T x y : Nat) : List Byte → List Byte
  | [] => []
  | b :: bs =>
    let x' := (x + 1) % 2 ^ 8
    let y' := (y + packedRead T x') % 2 ^ 8
    let T' := packedSwap T x' y'
    (b ^^^ BitVec.ofNat 8 (packedRead T' ((packedRead T' x' + packedRead T' y') % 2 ^ 8))) ::
      packedStream T' x' y' bs

/-- The packed table `T` holds the entries of `t`. -/
def Packs (T : Nat) (t : Table) : Prop := ∀ x : Byte, (readEntry t x).toNat = packedRead T x.toNat

theorem packedRead_testBit (T x i : Nat) :
    (packedRead T x).testBit i = (decide (i < 8) && T.testBit (8 * x + i)) := by
  rw [packedRead, Nat.testBit_mod_two_pow, Nat.testBit_shiftRight]

/-- Shifted into place, an entry-wide difference `d` shows at its own entry only. -/
theorem shifted_testBit (d a x i : Nat) (hd : d < 2 ^ 8) (hi : i < 8) :
    (d <<< (8 * a)).testBit (8 * x + i) = (decide (x = a) && d.testBit i) := by
  rw [Nat.testBit_shiftLeft]
  rcases Nat.lt_trichotomy x a with h | rfl | h
  · rw [decide_eq_false (by omega : ¬ 8 * x + i ≥ 8 * a), decide_eq_false (by omega)]
    rfl
  · simp
  · rw [Nat.testBit_lt_two_pow (Nat.lt_of_lt_of_le hd (Nat.pow_le_pow_right (by omega)
      (by omega : 8 ≤ 8 * x + i - 8 * a))), decide_eq_false (by omega : ¬ x = a)]
    simp

theorem packedRead_packedSwap (T a b x : Nat) :
    packedRead (packedSwap T a b) x =
      if x = a then packedRead T b else if x = b then packedRead T a else packedRead T x := by
  refine Nat.eq_of_testBit_eq fun i => ?_
  by_cases hi : i < 8
  · have hd : packedRead T a ^^^ packedRead T b < 2 ^ 8 :=
      Nat.xor_lt_two_pow (Nat.mod_lt _ (by decide)) (Nat.mod_lt _ (by decide))
    rw [packedRead_testBit, packedSwap, Nat.testBit_xor, Nat.testBit_xor, shifted_testBit _ _ _ _ hd hi,
      shifted_testBit _ _ _ _ hd hi, Nat.testBit_xor, packedRead_testBit, packedRead_testBit]
    split_ifs with h h'
    · subst h
      by_cases h' : x = b
      · simp_all [packedRead_testBit]
      · simp_all [packedRead_testBit]
    · subst h'
      simp only [h, hi, decide_true, decide_false, Bool.true_and, Bool.false_and, packedRead_testBit]
      cases T.testBit (8 * a + i) <;> simp
    · simp_all [packedRead_testBit]
  · rw [packedRead_testBit]
    split_ifs <;> simp [packedRead_testBit, hi]

theorem Packs.swap {T : Nat} {t : Table} (h : Packs T t) (a b : Byte) :
    Packs (packedSwap T a.toNat b.toNat) (swapEntries t a b) := by
  intro x
  rw [readEntry_swapEntries, packedRead_packedSwap]
  unfold refSwap
  simp only [BitVec.toNat_inj]
  split_ifs <;> exact h _

theorem packs_identityTable : Packs (packedIdentity 256) identityTable := by
  intro x
  rw [readEntry_identityTable]
  revert x
  decide +kernel

/-- The packed KSA is the machine's. -/
theorem packs_ksaRun (kbuf : Table) (key : List Byte) (kl : BitVec 9) (hlen : key.length = kl.toNat)
    (hpos : 0 < key.length) (hmax : key.length ≤ 256) (n : Nat) (hn : n ≤ 256) :
    Packs (packedKsa key n).1 (ksaRun (keyInto kbuf key) kl n).1 ∧
      (ksaRun (keyInto kbuf key) kl n).2.toNat = (packedKsa key n).2 := by
  induction n with
  | zero => exact ⟨packs_identityTable, rfl⟩
  | succ n ih =>
    obtain ⟨hT, hj⟩ := ih (by omega)
    have hn8 : (BitVec.ofNat 8 n).toNat = n := by rw [BitVec.toNat_ofNat]; omega
    have hkj : (ksaRun (keyInto kbuf key) kl (n + 1)).2.toNat = (packedKsa key (n + 1)).2 := by
      rw [ksaRun_succ, ksaStep_kj, keyByte_keyInto kbuf key kl n hlen hpos hmax]
      simp only [BitVec.toNat_add, packedKsa, hj, hT _, hn8]
      omega
    refine ⟨?_, hkj⟩
    have := hT.swap (BitVec.ofNat 8 n) (ksaRun (keyInto kbuf key) kl (n + 1)).2
    rw [hn8, hkj] at this
    exact this

/-- The packed keystream loop is the machine's. -/
theorem packedStream_eq (p : PermState) (T : Nat) (hT : Packs T p.table) (data : List Byte) :
    (applyKeystream p data).2 = packedStream T p.i.toNat p.j.toNat data := by
  induction data generalizing p T with
  | nil => rfl
  | cons b bs ih =>
    have hi : (prgaStep p).1.i.toNat = (p.i.toNat + 1) % 2 ^ 8 := by
      show (p.i + 1).toNat = _
      rw [BitVec.toNat_add]
      rfl
    have hj : (prgaStep p).1.j.toNat =
        (p.j.toNat + packedRead T ((p.i.toNat + 1) % 2 ^ 8)) % 2 ^ 8 := by
      show (p.j + readEntry p.table (prgaStep p).1.i).toNat = _
      rw [BitVec.toNat_add, hT, hi]
    have ht : Packs (packedSwap T (prgaStep p).1.i.toNat (prgaStep p).1.j.toNat)
        (prgaStep p).1.table := hT.swap _ _
    have hk : (prgaStep p).2 = readEntry (prgaStep p).1.table
        (readEntry (prgaStep p).1.table (prgaStep p).1.i +
          readEntry (prgaStep p).1.table (prgaStep p).1.j) := rfl
    rw [applyKeystream_cons, ih _ _ ht, hi, hj, packedStream]
    rw [hi, hj] at ht
    refine congrArg (fun k => (b ^^^ k) :: _) (BitVec.eq_of_toNat_eq ?_)
    rw [hk, ht, BitVec.toNat_add, ht, ht, hi, hj, BitVec.toNat_ofNat]
    exact (Nat.mod_eq_of_lt (Nat.mod_lt _ (by decide))).symm

/-- The bytes the machine makes of `data` with the session of a fresh key, evaluated on the packed table. -/
theorem applyKeystream_scheduledSession (kbuf : Table) (klen : BitVec 9) (key data : List Byte)
    (hlen : key.length = klen.toNat) (hk : ValidKeyLength klen) :
    (applyKeystream (scheduledSession kbuf klen key) data).2 =
      packedStream (packedKsa key 256).1 0 0 data := by
  refine packedStream_eq _ _ ?_ data
  have := (packs_ksaRun kbuf key klen hlen (by omega) (by omega) 256 (Nat.le_refl _)).1
  rw [← ksa_eq_ksaRun] at this
  exact this

/-- The table the machine schedules a key into, entry by entry, evaluated on the packed table. -/
theorem readEntry_scheduledSession (kbuf : Table) (klen : BitVec 9) (key : List Byte)
    (hlen : key.length = klen.toNat) (hk : ValidKeyLength klen) (x : Byte) :
    (readEntry (scheduledSession kbuf klen key).table x).toNat =
      packedRead (packedKsa key 256).1 x.toNat := by
  have := (packs_ksaRun kbuf key klen hlen (by omega) (by omega) 256 (Nat.le_refl _)).1
  rw [← ksa_eq_ksaRun] at this
  exact this x

end Sys2Proof.Machine
end

