-- ==== Sys2Proof/Laws/PerInstr.lean ====
section
/-! SUPPORT. Statements about every command as syntax, one lemma per constructor.

`CommandShape`: the stream bytes of a well-formed command are `8 + KLEN + DLEN` (`30_encoding.md` R71),
KLEN and DLEN being the fields of its own descriptor, and the reserved fields of that descriptor are 0
(R64). -/

namespace Sys2Proof.Laws.CommandShape

open Sys2Proof

/-- R64, R71. -/
def Statement (i : Instr) : Prop :=
  i.wellFormed = true →
    (encode i).length = 8 + i.descriptor.klen.toNat + i.descriptor.dlen.toNat ∧
    i.descriptor.rsv0 = 0 ∧ i.descriptor.rsv1 = 0

theorem init (klen : BitVec 9) (key : List Byte) : Statement (.init klen key) := by
  intro h
  simp_all [Instr.wellFormed, encode, Instr.descriptor, Instr.keyPayload, Instr.dataPayload]

theorem apply (dlen : BitVec 32) (data : List Byte) : Statement (.apply dlen data) := by
  intro h
  simp_all [Instr.wellFormed, encode, Instr.descriptor, Instr.keyPayload, Instr.dataPayload]

theorem applyStatic (klen : BitVec 9) (dlen : BitVec 32) (key data : List Byte) :
    Statement (.applyStatic klen dlen key data) := by
  intro h
  simp_all [Instr.wellFormed, encode, Instr.descriptor, Instr.keyPayload, Instr.dataPayload,
    Nat.add_assoc]

end Sys2Proof.Laws.CommandShape
end

