-- ==== Sys2Proof/Laws/Step.lean ====
section
/-! SUPPORT. Everything a command and a step can do, said once (R13, R68, R180): the invariants and the
whole-machine rules are case analyses of `exec_next_cases` and `step_next_cases`. -/

namespace Sys2Proof.Machine

/-- A key of valid length is scheduled as R92 to R95 say, whatever KBUF held before. -/
theorem scheduledSession_ref (kbuf : Table) (klen : BitVec 9) (key : List Byte)
    (hlen : key.length = klen.toNat) (hk : ValidKeyLength klen) :
    (scheduledSession kbuf klen key).ref = refStart key := by
  obtain ⟨h5, h256⟩ := hk
  have h := ksaRun_eq_refKsa kbuf key klen hlen (by omega) (by omega) 256
  rw [← ksa_eq_ksaRun] at h
  simp only [scheduledSession, PermState.ref, startCursors, refStart, h.1]

/-- The scheduled session is a function of the key alone. -/
theorem scheduledSession_kbuf (kbuf kbuf' : Table) (klen : BitVec 9) (key : List Byte)
    (hlen : key.length = klen.toNat) (hk : ValidKeyLength klen) :
    scheduledSession kbuf klen key = scheduledSession kbuf' klen key :=
  permState_ext_ref <| by
    rw [scheduledSession_ref _ _ _ hlen hk, scheduledSession_ref _ _ _ hlen hk]

/-! ### Commands -/

/-- Everything a command that answers a next state can have done. -/
inductive ExecDid : Instr → State → State → Prop
  /-- INIT scheduled its key. -/
  | init {klen key s} (hlen : key.length = klen.toNat) (hk : ValidKeyLength klen) :
    ExecDid (.init klen key) s (initState klen key s)
  /-- APPLY advanced the session. -/
  | apply {dlen data s} (hlen : data.length = dlen.toNat) (hv : s.valid = true) :
    ExecDid (.apply dlen data) s (applyState data s)
  /-- APPLY_STATIC ran on the scratch context. -/
  | applyStatic {klen dlen key data s} (hlen : key.length = klen.toNat)
    (hdata : data.length = dlen.toNat) (hk : ValidKeyLength klen) :
    ExecDid (.applyStatic klen dlen key data) s (applyStaticState klen key data s)
  /-- The command failed. -/
  | failed {i : Instr} {s} (e : Status) (he : e = .errKeyLength ∨ e = .errNoSession)
    (hi : i.wellFormed = true) : ExecDid i s (finish e i.dataPayload s)

/-- The inversion of `exec`. -/
theorem exec_next_cases {i : Instr} {s t : State} (h : exec i s = .next t) : ExecDid i s t := by
  cases i with
  | init klen key =>
    simp only [exec, execInit_eq] at h
    split_ifs at h with hlen hk <;> cases h
    · exact .init hlen hk
    · exact .failed (i := .init klen key) .errKeyLength (.inl rfl)
        (by simpa [Instr.wellFormed] using hlen)
  | apply dlen data =>
    simp only [exec, execApply_eq] at h
    split_ifs at h with hlen hv <;> cases h
    · exact .apply hlen hv
    · exact .failed (i := .apply dlen data) .errNoSession (.inr rfl)
        (by simpa [Instr.wellFormed] using hlen)
  | applyStatic klen dlen key data =>
    simp only [exec, execApplyStatic_eq] at h
    split_ifs at h with hlen hk <;> cases h
    · exact .applyStatic hlen.1 hlen.2 hk
    · exact .failed (i := .applyStatic klen dlen key data) .errKeyLength (.inl rfl)
        (by simpa [Instr.wellFormed] using hlen)

/-- What every command leaves behind: a response of a status byte and data, and the host's side as it
was. -/
theorem exec_next_shape {i : Instr} {s t : State} (h : exec i s = .next t) :
    (∃ (st : Status) (out : List Byte), t.frame = .resp (st.code :: out)) ∧
      t.cmdIn = s.cmdIn ∧ t.takes = s.takes ∧ t.respOut = s.respOut ∧ t.resets = s.resets := by
  cases exec_next_cases h with
  | init => exact ⟨⟨.ok, [], rfl⟩, rfl, rfl, rfl, rfl⟩
  | apply => exact ⟨⟨.ok, _, rfl⟩, rfl, rfl, rfl, rfl⟩
  | applyStatic => exact ⟨⟨.ok, _, rfl⟩, rfl, rfl, rfl, rfl⟩
  | failed e => exact ⟨⟨e, _, rfl⟩, rfl, rfl, rfl, rfl⟩

/-- No command ends in a fault (R170). -/
theorem exec_ne_fault (i : Instr) (s : State) (f : Fault) : exec i s ≠ .fault f := by
  cases i with
  | init klen key => simp only [exec, execInit_eq]; split_ifs <;> simp
  | apply dlen data => simp only [exec, execApply_eq]; split_ifs <;> simp
  | applyStatic klen dlen key data => simp only [exec, execApplyStatic_eq]; split_ifs <;> simp

/-! ### Decoding in `EXEC` -/

/-- A decoded command carries the descriptor's own counts and the payloads it was given. -/
theorem decodeCommand_ok {d : Descriptor} {key data : List Byte} {i : Instr}
    (h : decodeCommand d key data = .ok i) :
    (i = .init d.klen key ∧ d.op = 0x1 ∧ d.rsv0 = 0 ∧ d.rsv1 = 0 ∧ d.dlen = 0 ∧ data = []) ∨
    (i = .apply d.dlen data ∧ d.op = 0x2 ∧ d.rsv0 = 0 ∧ d.rsv1 = 0 ∧ d.klen = 0 ∧ key = []) ∨
    (i = .applyStatic d.klen d.dlen key data ∧ d.op = 0x3 ∧ d.rsv0 = 0 ∧ d.rsv1 = 0) := by
  simp only [decodeCommand] at h
  split_ifs at h <;> simp_all

/-- With the payloads the framing takes, a decoded command is well-formed (R68, R76). -/
theorem decodeCommand_wellFormed {d : Descriptor} {key data : List Byte} {i : Instr}
    (h : decodeCommand d key data = .ok i) (hk : key.length = d.klen.toNat)
    (hd : data.length = d.dlen.toNat) : i.wellFormed = true ∧ i.dataPayload = data := by
  obtain ⟨rfl, h⟩ | ⟨rfl, h⟩ | ⟨rfl, h⟩ := decodeCommand_ok h <;>
    simp_all [Instr.wellFormed, Instr.dataPayload]

/-! ### Steps -/

theorem resetDue_iff (s : State) : resetDue s = true ↔ s.resets.head? = some 0 := by
  simp [resetDue]

/-- Everything a step that answers a next state can have done. -/
inductive StepDid (s : State) : State → Prop
  /-- A reset was due. -/
  | reset (h : s.resets.head? = some 0) : StepDid s (resetEngine s)
  /-- The engine waited, with a reset to come. -/
  | waited (h : s.resets ≠ []) : StepDid s (tick s)
  /-- `DESC(n)` took a byte. -/
  | desc {got b rest} (hf : s.frame = .desc got) (hc : s.cmdIn = b :: rest) :
    StepDid s { tick s with cmdIn := rest, frame := takeDescByte got b }
  /-- `KEY(r)` stored a byte. -/
  | key {d got b rest} (hf : s.frame = .key d got) (hc : s.cmdIn = b :: rest)
    (hlt : got.length < d.klen.toNat) :
    StepDid s { tick s with cmdIn := rest, frame := .key d (got ++ [b]) }
  /-- `KEY(0)` became `DATA(DLEN)`. -/
  | keyDone {d got} (hf : s.frame = .key d got) (hge : d.klen.toNat ≤ got.length) :
    StepDid s { tick s with frame := .data d got [] }
  /-- `DATA(r)` stored a byte. -/
  | data {d kp got b rest} (hf : s.frame = .data d kp got) (hc : s.cmdIn = b :: rest)
    (hlt : got.length < d.dlen.toNat) :
    StepDid s { tick s with cmdIn := rest, frame := .data d kp (got ++ [b]) }
  /-- `DATA(0)` became `EXEC`. -/
  | dataDone {d kp got} (hf : s.frame = .data d kp got) (hge : d.dlen.toNat ≤ got.length) :
    StepDid s { tick s with frame := .exec d kp got }
  /-- `EXEC` ran a legal command. -/
  | command {d kp dp i t} (hf : s.frame = .exec d kp dp) (hd : decodeCommand d kp dp = .ok i)
    (ht : exec i (tick s) = .next t) : StepDid s t
  /-- `EXEC` reported an illegal command. -/
  | illegal {d kp dp e} (hf : s.frame = .exec d kp dp) (hd : decodeCommand d kp dp = .error e)
    (hk : kp.length = d.klen.toNat) (hdl : dp.length = d.dlen.toNat) :
    StepDid s (finish .errIllegalCommand dp (tick s))
  /-- `RESP(r)` gave a byte to the host. -/
  | resp {b left n} (hf : s.frame = .resp (b :: left)) (ht : s.takes = n + 1) :
    StepDid s { tick s with takes := n, respOut := s.respOut ++ [b], frame := .resp left }
  /-- `RESP(0)` became `DESC(0)`. -/
  | respDone (hf : s.frame = .resp []) : StepDid s { tick s with frame := .desc [] }

/-- A wait answers a next state only where a reset is to come, and then changes nothing. -/
theorem waitFor_tick_next {f : Fault} {s t : State} (h : waitFor f (tick s) = .next t) :
    t = tick s ∧ s.resets ≠ [] := by
  unfold waitFor at h
  split_ifs at h with hr
  cases h
  exact ⟨rfl, fun h => hr (by simp [h, countDown])⟩

/-- The inversion of `step`. -/
theorem step_next_cases {s t : State} (h : step s = .next t) : StepDid s t := by
  unfold step at h
  split_ifs at h with hr
  · cases h
    exact .reset ((resetDue_iff s).mp hr)
  split at h
  next got hf =>
    unfold descStep at h
    split at h
    · obtain ⟨rfl, hne⟩ := waitFor_tick_next h
      exact .waited hne
    next b rest hc => cases h; exact .desc hf hc
  next d got hf =>
    unfold keyStep at h
    split_ifs at h with hlt
    · split at h
      · obtain ⟨rfl, hne⟩ := waitFor_tick_next h
        exact .waited hne
      next b rest hc => cases h; exact .key hf hc hlt
    · cases h
      exact .keyDone hf (not_lt.mp hlt)
  next d kp got hf =>
    unfold dataStep at h
    split_ifs at h with hlt
    · split at h
      · obtain ⟨rfl, hne⟩ := waitFor_tick_next h
        exact .waited hne
      next b rest hc => cases h; exact .data hf hc hlt
    · cases h
      exact .dataDone hf (not_lt.mp hlt)
  next d kp dp hf =>
    split at h
    next i hd => exact .command hf hd h
    next e hd =>
      rw [execIllegal_eq] at h
      split_ifs at h with hl
      cases h
      exact .illegal hf hd hl.1 hl.2
  next left hf =>
    unfold respStep at h
    split at h
    · cases h
      exact .respDone hf
    next b rest =>
      split at h
      · obtain ⟨rfl, hne⟩ := waitFor_tick_next h
        exact .waited hne
      next n hn => cases h; exact .resp hf hn

/-! ### Runs -/

@[simp] theorem runSteps_zero (s : State) : runSteps 0 s = .next s := rfl

/-- The first step of a run. -/
theorem runSteps_succ (n : Nat) (s : State) :
    runSteps (n + 1) s = match step s with
      | .next t => runSteps n t
      | .fault f => .fault f
      | .refused r => .refused r := rfl

theorem runSteps_succ_next {n : Nat} {s t : State} (h : step s = .next t) :
    runSteps (n + 1) s = runSteps n t := by
  rw [runSteps_succ, h]

/-- The first step of a run of any machine behind the host's interface. -/
theorem coreRun_next {M : Host.Core} {n : Nat} {s t : M.State} (h : M.step s = .next t) :
    M.run (n + 1) s = M.run n t := by
  rw [Host.Core.run, h]

theorem coreRun_fault {M : Host.Core} {n : Nat} {s : M.State} {f : M.Fault}
    (h : M.step s = .fault f) : M.run (n + 1) s = .fault f := by
  rw [Host.Core.run, h]

theorem coreRun_refused {M : Host.Core} {n : Nat} {s : M.State} {r : M.Refusal}
    (h : M.step s = .refused r) : M.run (n + 1) s = .refused r := by
  rw [Host.Core.run, h]

/-- A run of the model is a run of the host's interface. -/
theorem runSteps_eq_coreRun (n : Nat) (s : State) :
    runSteps n s = Host.Core.run Sys2Proof.core n s := by
  induction n generalizing s with
  | zero => rfl
  | succ n ih =>
    rw [runSteps_succ]
    cases h : step s with
    | next t => exact (ih t).trans (coreRun_next (M := Sys2Proof.core) h).symm
    | fault f => exact (coreRun_fault (M := Sys2Proof.core) h).symm
    | refused r => exact (coreRun_refused (M := Sys2Proof.core) h).symm

/-- A run that goes on after `a` steps is a run of the sum. -/
theorem runSteps_add {a b : Nat} {s t : State} (h : runSteps a s = .next t) :
    runSteps (a + b) s = runSteps b t := by
  induction a generalizing s with
  | zero => cases h; rw [Nat.zero_add]
  | succ a ih =>
    rw [Nat.add_right_comm, runSteps_succ]
    rw [runSteps_succ] at h
    cases hs : step s with
    | next u => rw [hs] at h; exact ih h
    | fault f => rw [hs] at h; cases h
    | refused r => rw [hs] at h; cases h

/-- With no reset to come, the state a step is made in is the state itself. -/
theorem tick_of_no_resets {s : State} (h : s.resets = []) : tick s = s := by
  unfold tick
  rw [h]
  show { s with resets := [] } = s
  rw [← h]

end Sys2Proof.Machine
end

