-- ==== Sys2Proof/Tests/Slice0.lean ====
section
/-! SUPPORT. The model's own tests: ill-formed terms that WellFormed refuses, descriptors written out bit by bit
from `30_encoding.md` R61 to R65, vectors of `95_test_vectors.md`, and a witness for every statement of
Obligations.lean that has hypotheses. -/

namespace Sys2Proof.Tests

open Sys2Proof Sys2Proof.Machine

/-! ### Small states and operands -/

/-- The key `01 02 03 04 05`. -/
def key5 : List Byte := [1, 2, 3, 4, 5]

/-- The key `"Secret"`. -/
def keySecret : List Byte := [0x53, 0x65, 0x63, 0x72, 0x65, 0x74]

/-- `"Attack at dawn"`. -/
def attackAtDawn : List Byte :=
  [0x41, 0x74, 0x74, 0x61, 0x63, 0x6b, 0x20, 0x61, 0x74, 0x20, 0x64, 0x61, 0x77, 0x6e]

/-- A session on the identity table, which is a permutation. -/
def live : State := { State.reset with session := startCursors identityTable, valid := true }

/-- The session a fresh `INIT key=01 02 03 04 05` leaves. -/
def liveKey5 : State :=
  { State.reset with session := scheduledSession zeroTable 5 key5, valid := true }

/-- A state at `EXEC` with a command received. -/
def atExec (s : State) (d : Descriptor) (key data : List Byte) : State :=
  { s with frame := .exec d key data }

/-- A state at `DESC(0)` with bytes on the command stream and a host that takes `takes` bytes. -/
def atDesc (s : State) (bytes : List Byte) (takes : Nat) : State :=
  { s with frame := .desc [], cmdIn := bytes, takes := takes }

/-- What an instruction answers with, as a response. -/
def response : Host.Outcome State Fault Refusal → Option (List Byte)
  | .next t => pendingResponse t
  | _ => none

/-- The refusal of an outcome. -/
def refusal : Host.Outcome State Fault Refusal → Option Refusal
  | .refused r => some r
  | _ => none

/-! ### Ill-formed records (R76), each refused by the check and by the meaning -/

theorem test_wellFormed_init : (Instr.init 5 key5).wellFormed = true := by decide
theorem test_wellFormed_apply : (Instr.apply 2 [7, 8]).wellFormed = true := by decide
theorem test_wellFormed_applyStatic : (Instr.applyStatic 5 1 key5 [9]).wellFormed = true := by decide
theorem test_illFormed_init_key : (Instr.init 4 key5).wellFormed = false := by decide
theorem test_illFormed_apply_data : (Instr.apply 3 [7, 8]).wellFormed = false := by decide
theorem test_illFormed_applyStatic_key : (Instr.applyStatic 6 1 key5 [9]).wellFormed = false := by decide
theorem test_illFormed_applyStatic_data : (Instr.applyStatic 5 0 key5 [9]).wellFormed = false := by decide
theorem test_illFormed_is_refused :
    refusal (exec (.applyStatic 5 0 key5 [9]) State.reset) = some .payloadMismatch := by decide +kernel

/-! ### Descriptors written out bit by bit: DLEN, RSV1, KLEN, RSV0, OP (R61) -/

/-- INIT, KLEN 5 (R64 row 1). -/
theorem test_decode_init : decodeCommand
    (0b00000000000000000000000000000000#32 ++ 0b000000000000000#15 ++ 0b000000101#9 ++
      0b0000#4 ++ 0b0001#4) key5 [] = .ok (.init 5 key5) := by decide

/-- APPLY, DLEN 2 (R64 row 2). -/
theorem test_decode_apply : decodeCommand
    (0b00000000000000000000000000000010#32 ++ 0b000000000000000#15 ++ 0b000000000#9 ++
      0b0000#4 ++ 0b0010#4) [] [7, 8] = .ok (.apply 2 [7, 8]) := by decide

/-- APPLY_STATIC, KLEN 5, DLEN 1 (R64 row 3). -/
theorem test_decode_applyStatic : decodeCommand
    (0b00000000000000000000000000000001#32 ++ 0b000000000000000#15 ++ 0b000000101#9 ++
      0b0000#4 ++ 0b0011#4) key5 [9] = .ok (.applyStatic 5 1 key5 [9]) := by decide

/-- The same three on the stream, byte 0 first (R47), with bytes of the next command after them. -/
theorem test_decode_stream_init :
    decode [0b00000001, 0b00000101, 0, 0, 0, 0, 0, 0, 1, 2, 3, 4, 5, 0xEE] =
      .ok (.init 5 key5, [0xEE]) := by decide
theorem test_decode_stream_apply :
    decode [0b00000010, 0, 0, 0, 0b00000010, 0, 0, 0, 7, 8, 0xEE] =
      .ok (.apply 2 [7, 8], [0xEE]) := by decide
theorem test_decode_stream_applyStatic :
    decode [0b00000011, 0b00000101, 0, 0, 0b00000001, 0, 0, 0, 1, 2, 3, 4, 5, 9, 0xEE] =
      .ok (.applyStatic 5 1 key5 [9], [0xEE]) := by decide

/-- KLEN's bit 8 is descriptor bit 16 (2.1, `0x0000000000010101`). -/
theorem test_decode_klen_257 : (0x0000000000010101 : Descriptor).klen = 257 := by decide

/-- R65, one descriptor per item (2.1). -/
theorem test_decode_illegal :
    decodeCommand 0x0000000000000000 [] [] = .error .reservedOpcode ∧
    decodeCommand 0x000000000000000F [] [] = .error .reservedOpcode ∧
    decodeCommand 0x0000000000000513 key5 [] = .error .rsv0NotZero ∧
    decodeCommand 0x0000000000020002 [] [] = .error .rsv1NotZero ∧
    decodeCommand 0x0000000300000401 [1, 2, 3, 4] [7, 8, 9] = .error .initWithData ∧
    decodeCommand 0x0000000200000502 key5 [7, 8] = .error .applyWithKey := by decide

theorem test_decode_truncated :
    decode [0b00000001, 0b00000101, 0, 0, 0, 0, 0, 0, 1, 2, 3, 4] = .error .truncated := by decide

/-- The table's words, with payloads of zeros. -/
theorem test_table_words :
    decodeTableWord 64 0x0000000000000501 = some (.init 5 [0, 0, 0, 0, 0]) ∧
    decodeTableWord 64 0x0000000200000002 = some (.apply 2 [0, 0]) ∧
    decodeTableWord 64 0x0000000100000003 = some (.applyStatic 0 1 [] [0]) ∧
    decodeTableWord 64 0x0000000000000004 = none := by decide

/-! ### Vectors of `95_test_vectors.md`, one step each -/

/-- W2: INIT with KLEN 4 is rejected, state unchanged. -/
theorem test_init_klen_4 : exec (.init 4 [1, 2, 3, 4]) live =
    .next { live with frame := .resp [0x01] } := by
  simp only [exec]
  rw [execInit_eq, if_pos (by decide), if_neg (by decide)]
  rfl

/-- What `INIT key=01 02 03 04 05` answers, from any state. -/
theorem exec_init_key5 (s : State) : exec (.init 5 key5) s = .next (initState 5 key5 s) := by
  simp only [exec]
  rw [execInit_eq, if_pos (by decide), if_pos (by decide)]

/-- V-KSA-1: the first row of S, and its last entry, after `INIT key=01 02 03 04 05`. -/
theorem test_init_v_ksa_1 : ∃ t, exec (.init 5 key5) State.reset = .next t ∧
    [0x00, 0x01, 0x02, 0x03, 0x04, 0x05, 0x06, 0x07, 0x08, 0x09, 0x0a, 0x0b, 0x0c, 0x0d, 0x0e, 0x0f,
      0xff].map (fun x : Byte => (readEntry t.session.table x).toNat) =
    [0x01, 0x03, 0x08, 0xc9, 0x15, 0x1b, 0x23, 0x43, 0xf2, 0x91, 0xcf, 0x59, 0x5c, 0x6d, 0x1f, 0x90,
      0x58] := by
  refine ⟨_, exec_init_key5 _, ?_⟩
  rw [initState_session]
  simp only [readEntry_scheduledSession _ 5 key5 (by decide) (by decide)]
  decide +kernel

theorem exec_apply_live {s : State} (hv : s.valid = true) (dlen : BitVec 32) (data : List Byte)
    (h : data.length = dlen.toNat) : exec (.apply dlen data) s = .next (applyState data s) := by
  simp only [exec]
  rw [execApply_eq, if_pos h, if_pos hv]

/-- V-PRGA-1, first row: the 16 keystream bytes of `01 02 03 04 05` at offset 0. -/
theorem test_apply_v_prga_1 : response (exec (.apply 16 (List.replicate 16 0)) liveKey5) =
    some [0x00, 0xb2, 0x39, 0x63, 0x05, 0xf0, 0x3d, 0xc0, 0x27, 0xcc, 0xc3, 0x52, 0x4a, 0x0a, 0x11,
      0x18, 0xa8] := by
  rw [exec_apply_live rfl _ _ (by decide), response, pendingResponse_applyState, liveKey5]
  simp only [applyKeystream_scheduledSession _ 5 key5 _ (by decide) (by decide)]
  decide +kernel

/-- V-PRGA-5, `t = i`: keystream byte 325 of `01 02 03 04 05` is eb, and would be 5b were `S[t]` read before the
swap (R113). -/
theorem test_apply_reads_after_swap :
    (response (exec (.apply 326 (List.replicate 326 0)) liveKey5)).map (·.getLast?) =
      some (some 0xeb) := by
  rw [exec_apply_live rfl _ _ (by decide +kernel), response, pendingResponse_applyState, liveKey5]
  simp only [applyKeystream_scheduledSession _ 5 key5 _ (by decide) (by decide)]
  decide +kernel

/-- 2.4: `APPLY_STATIC key="Secret" data="Attack at dawn"`. -/
theorem test_applyStatic_attack_at_dawn :
    response (exec (.applyStatic 6 14 keySecret attackAtDawn) State.reset) =
      some [0x00, 0x45, 0xa0, 0x1f, 0x64, 0x5f, 0xc3, 0x5b, 0x38, 0x35, 0x52, 0x54, 0x4b, 0x9b,
        0xf5] := by
  simp only [exec]
  rw [execApplyStatic_eq, if_pos (by decide), if_pos (by decide), response,
    pendingResponse_applyStaticState, applyKeystream_scheduledSession _ 6 keySecret _ (by decide) (by decide)]
  decide +kernel

/-- 2.4: `.cmd op=3 klen=4 dlen=5 key="Wiki" data="pedia"` is echoed. -/
theorem test_applyStatic_wiki :
    response (exec (.applyStatic 4 5 [0x57, 0x69, 0x6b, 0x69] [0x70, 0x65, 0x64, 0x69, 0x61])
      State.reset) = some [0x01, 0x70, 0x65, 0x64, 0x69, 0x61] := by decide +kernel

/-- V-PRGA-6 and 2.5: illegal descriptors with other causes present, run by the step. -/
theorem test_illegal_rsv0 :
    response (step (atExec State.reset 0x0000000100000082 [] [0xff])) = some [0x03, 0xff] := by
  decide +kernel
theorem test_illegal_before_key_length :
    response (step (atExec State.reset 0x0000000300000401 [1, 2, 3, 4] [7, 8, 9])) =
      some [0x03, 7, 8, 9] := by decide +kernel

/-- R74: `APPLY_STATIC key="Secret" data="Attack at dawn"`, and `.cmd op=1 klen=5 dlen=3` (illegal). -/
theorem test_assemble_applyStatic :
    assemble (.applyStatic (.quoted "Secret") (.quoted "Attack at dawn")) =
      some ([0x03, 0x06, 0, 0, 0x0e, 0, 0, 0] ++ keySecret ++ attackAtDawn) := by decide +kernel
theorem test_assemble_cmd :
    assemble (.cmd 1 0 5 0 3 (.zeros 5) (.hex [7, 8, 9])) =
      some [0x01, 0x05, 0, 0, 0x03, 0, 0, 0, 0, 0, 0, 0, 0, 7, 8, 9] := by decide +kernel

/-! ### The host's questions: the first instruction after reset -/

theorem test_withFetchWord_apply :
    response (step (State.reset.withFetchWord 64 0x0000000200000002)) = some [0x02, 0, 0] := by decide +kernel
theorem test_withFetchWord_init :
    response (step (State.reset.withFetchWord 64 0x0000000000000001)) = some [0x01] := by decide +kernel
theorem test_withFetchWord_applyStatic :
    response (step (State.reset.withFetchWord 64 0x0000000000000003)) = some [0x01] := by decide +kernel

/-! ### Witnesses: operands that meet the hypotheses of the statements -/

theorem witness_DescriptorBytesAreLittleEndian :
    ∃ (bs : List Byte) (k b : Nat), k < bs.length ∧ bs.length = 8 ∧ b < 8 ∧ k = 7 ∧ b = 7 :=
  ⟨List.replicate 8 0, 7, 7, by decide⟩

/-- Each clause of the table, and an illegal descriptor for each item of R65. -/
theorem witness_DecodeFollowsOpcodeTable :
    let fits (d : Descriptor) (key data : List Byte) :=
      key.length = d.klen.toNat ∧ data.length = d.dlen.toNat
    fits 0x0000000000000501 key5 [] ∧ fits 0x0000000200000002 [] [7, 8] ∧
    fits 0x0000000100000503 key5 [9] ∧ fits 0x0000000000000000 [] [] ∧
    fits 0x0000000100000012 [] [9] ∧ fits 0x0000000000020002 [] [] ∧
    fits 0x0000000300000401 [1, 2, 3, 4] [7, 8, 9] ∧ fits 0x0000000200000502 key5 [7, 8] := by decide

theorem witness_DecodeEncodeRoundTrip :
    (Instr.init 0 []).wellFormed = true ∧ (Instr.init 5 key5).wellFormed = true ∧
    (Instr.apply 0 []).wellFormed = true ∧ (Instr.apply 2 [7, 8]).wellFormed = true ∧
    (Instr.applyStatic 5 1 key5 [9]).wellFormed = true := by decide

theorem witness_DecodedBytesAreTheEncoding :
    decode [0x03, 0x05, 0, 0, 0x01, 0, 0, 0, 1, 2, 3, 4, 5, 9, 0xEE] =
      .ok (.applyStatic 5 1 key5 [9], [0xEE]) := test_decode_stream_applyStatic

/-- Lists at the bounds of the count fields, a quoted text, a `.cmd` that fits and two that do not. -/
theorem witness_AssemblyLinesSpellTheirCommands :
    (("Secret".toList[5]? = some 't') ∧ 't'.toNat < 128) ∧
    (byteTextBytes (.zeros 511)).length < 2 ^ 9 ∧ (byteTextBytes (.hex [7])).length < 2 ^ 32 ∧
    (byteTextBytes (.hex [])).length < 2 ^ 9 ∧ 2 ^ 9 ≤ (byteTextBytes (.zeros 512)).length ∧
    ((byteTextBytes (.zeros 5)).length = (5 : BitVec 9).toNat ∧
      (byteTextBytes (.hex [7])).length = (1 : BitVec 32).toNat) ∧
    (byteTextBytes (.zeros 5)).length ≠ (4 : BitVec 9).toNat ∧
    (byteTextBytes (.hex [7])).length ≠ (0 : BitVec 32).toNat := by decide +kernel

/-- A data list longer than DLEN can say. -/
theorem witness_AssemblyLinesSpellTheirCommands_long :
    2 ^ 32 ≤ (byteTextBytes (.zeros (2 ^ 32))).length :=
  (List.length_replicate (n := 2 ^ 32) (a := (0 : Byte))).ge

theorem witness_KeystreamLineGivesTheKeystream :
    (live.valid = true ∧ 0 < 2 ^ 32) ∧ (live.valid = true ∧ 326 < 2 ^ 32) := by decide +kernel

/-- The shortest and the longest key (for InitSchedulesTheKey, InitSessionDependsOnKeyOnly,
FreshSessionsAreSymmetric and the valid clause of StatefulAndStatelessAgree). -/
theorem witness_InitSchedulesTheKey :
    (key5.length = (5 : BitVec 9).toNat ∧ ValidKeyLength 5) ∧
    ((List.replicate 256 (0xff : Byte)).length = (256 : BitVec 9).toNat ∧ ValidKeyLength 256) := by
  decide +kernel

theorem witness_InitSessionDependsOnKeyOnly :
    key5.length = (5 : BitVec 9).toNat ∧ ValidKeyLength 5 := by decide

/-- The key lengths on either side of the bounds, and the extremes of the field. -/
theorem witness_InitRejectsKeyLength :
    (([1, 2, 3, 4] : List Byte).length = (4 : BitVec 9).toNat ∧ ¬ ValidKeyLength 4) ∧
    ((List.replicate 257 (0 : Byte)).length = (257 : BitVec 9).toNat ∧ ¬ ValidKeyLength 257) ∧
    (([] : List Byte).length = (0 : BitVec 9).toNat ∧ ¬ ValidKeyLength 0) ∧
    ((List.replicate 511 (0 : Byte)).length = (511 : BitVec 9).toNat ∧ ¬ ValidKeyLength 511) := by
  decide +kernel

/-- The cases of KeystreamByteIsReadAfterSwap: `t` is neither (with x = y), `t = x`, and `t = y`. -/
theorem witness_KeystreamByteIsReadAfterSwap :
    (let p : PermState := ⟨writeEntry zeroTable 1 1, 0, 0⟩
     let x := p.i + 1
     let y := p.j + readEntry p.table x
     readEntry p.table x + readEntry p.table y = 2 ∧ x = 1 ∧ y = 1) ∧
    (let p : PermState := ⟨writeEntry zeroTable 1 1, 0, 2⟩
     let x := p.i + 1
     let y := p.j + readEntry p.table x
     readEntry p.table x + readEntry p.table y = x ∧ y = 3) ∧
    (let p : PermState := ⟨writeEntry (writeEntry zeroTable 1 1) 3 2, 0, 2⟩
     let x := p.i + 1
     let y := p.j + readEntry p.table x
     readEntry p.table x + readEntry p.table y = y ∧ x = 1) := by decide +kernel

theorem witness_ApplyXorsTheKeystream :
    (([] : List Byte).length = (0 : BitVec 32).toNat ∧ live.valid = true) ∧
    (([7, 8] : List Byte).length = (2 : BitVec 32).toNat ∧ live.valid = true) := by decide +kernel

theorem witness_ApplyNeedsSession :
    (([] : List Byte).length = (0 : BitVec 32).toNat ∧ State.reset.valid = false) ∧
    (([7, 8] : List Byte).length = (2 : BitVec 32).toNat ∧ State.reset.valid = false) := by
  decide +kernel

theorem witness_CursorAdvancesByDataLength :
    (ValidKeyLength 5 ∧ ∃ t, exec (.init 5 key5) State.reset = .next t) ∧
    (([7, 8] : List Byte).length = (2 : BitVec 32).toNat ∧ live.valid = true) :=
  ⟨⟨by decide, _, exec_init_key5 _⟩, by decide, rfl⟩

theorem witness_ApplyKeepsPermutation :
    IsPermutation live.session.table ∧ ∃ t, exec (.apply 2 [7, 8]) live = .next t :=
  ⟨identityTable_isPermutation, _, exec_apply_live rfl 2 [7, 8] (by decide)⟩

theorem witness_ApplyChunkingEquivalence :
    live.valid = true ∧ (([7] : List Byte) ++ [8, 9]).length < 2 ^ 32 := by decide +kernel

theorem witness_ApplyStateIgnoresData :
    live.valid = true ∧ ([7, 8] : List Byte).length = (2 : BitVec 32).toNat ∧
    ([0, 0xff] : List Byte).length = (2 : BitVec 32).toNat := by decide +kernel

theorem witness_FreshSessionsAreSymmetric :
    key5.length = (5 : BitVec 9).toNat ∧ ValidKeyLength 5 ∧ attackAtDawn.length < 2 ^ 32 := by decide

theorem witness_ApplyStaticXorsTheKeystreamOfTheKey :
    (keySecret.length = (6 : BitVec 9).toNat ∧ attackAtDawn.length = (14 : BitVec 32).toNat ∧
      ValidKeyLength 6) ∧
    ((List.replicate 256 (0xff : Byte)).length = (256 : BitVec 9).toNat ∧
      ([] : List Byte).length = (0 : BitVec 32).toNat ∧ ValidKeyLength 256) := by decide +kernel

theorem witness_ApplyStaticRejectsKeyLength :
    (([1, 2, 3, 4] : List Byte).length = (4 : BitVec 9).toNat ∧
      ([7, 8] : List Byte).length = (2 : BitVec 32).toNat ∧ ¬ ValidKeyLength 4) ∧
    ((List.replicate 257 (0 : Byte)).length = (257 : BitVec 9).toNat ∧
      ([] : List Byte).length = (0 : BitVec 32).toNat ∧ ¬ ValidKeyLength 257) := by decide +kernel

theorem witness_ApplyStaticIsIsolated :
    keySecret.length = (6 : BitVec 9).toNat ∧ attackAtDawn.length = (14 : BitVec 32).toNat := by decide

/-- Both clauses: a valid key with an empty chunk among the chunks, and a key too short. -/
theorem witness_StatefulAndStatelessAgree :
    (key5.length = (5 : BitVec 9).toNat ∧
      ([[7], [], [8, 9]] : List (List Byte)).flatten.length < 2 ^ 32 ∧ ValidKeyLength 5) ∧
    (([1, 2, 3, 4] : List Byte).length = (4 : BitVec 9).toNat ∧
      ([[7], [8, 9]] : List (List Byte)).flatten.length < 2 ^ 32 ∧ ¬ ValidKeyLength 4) := by decide

theorem witness_StaticReapplicationIsIdentity :
    keySecret.length = (6 : BitVec 9).toNat ∧ attackAtDawn.length = (14 : BitVec 32).toNat ∧
    ValidKeyLength 6 := by decide

/-! ### Witnesses: states at `EXEC` -/

/-- The hypotheses of StatusFollowsPriority and FailedCommandsEchoAndWriteNothing, on one command. -/
abbrev Received (s : State) (d : Descriptor) (key data : List Byte) : Prop :=
  s.frame = .exec d key data ∧ key.length = d.klen.toNat ∧ data.length = d.dlen.toNat ∧
    s.resets.head? ≠ some 0

/-- One command for each branch of the priority: each illegal kind, the key lengths 4 and 257 of INIT
and APPLY_STATIC, APPLY without a session, and the three that complete. -/
theorem witness_StatusFollowsPriority :
    let at0 (d : Descriptor) (key data : List Byte) := Received (atExec State.reset d key data) d key data
    at0 0x0000000000000000 [] [] ∧ at0 0x000000020000000F [] [7, 8] ∧
    at0 0x0000000100000082 [] [0xff] ∧ at0 0x0000000000020002 [] [] ∧
    at0 0x0000000300000401 [1, 2, 3, 4] [7, 8, 9] ∧ at0 0x0000000000000202 [1, 2] [] ∧
    at0 0x0000000000000401 [1, 2, 3, 4] [] ∧
    at0 0x0000000000010101 (List.replicate 257 0) [] ∧
    at0 0x0000000200000403 [1, 2, 3, 4] [7, 8] ∧
    at0 0x0000000000010103 (List.replicate 257 0) [] ∧
    at0 0x0000000200000002 [] [7, 8] ∧ at0 0x0000000000000501 key5 [] ∧
    at0 0x0000000100000503 key5 [9] ∧
    Received (atExec live 0x0000000200000002 [] [7, 8]) 0x0000000200000002 [] [7, 8] := by
  simp only [Received]
  refine ⟨?_, ?_, ?_, ?_, ?_, ?_, ?_, ?_, ?_, ?_, ?_, ?_, ?_, ?_⟩ <;>
    exact ⟨rfl, by decide +kernel, by decide +kernel, by decide +kernel⟩

/-- A command that fails, and one that completes. -/
theorem witness_FailedCommandsEchoAndWriteNothing :
    Received (atExec live 0x0000000200000403 [1, 2, 3, 4] [7, 8]) 0x0000000200000403 [1, 2, 3, 4] [7, 8] ∧
    Received (atExec live 0x0000000200000002 [] [7, 8]) 0x0000000200000002 [] [7, 8] := by
  simp only [Received]
  refine ⟨?_, ?_⟩ <;> exact ⟨rfl, by decide +kernel, by decide +kernel, by decide +kernel⟩

/-- R65, an illegal descriptor of each item. -/
theorem witness_IllegalCommandIsReported :
    let here (d : Descriptor) (key data : List Byte) :=
      (atExec live d key data).frame = .exec d key data ∧ key.length = d.klen.toNat ∧
        data.length = d.dlen.toNat ∧ (atExec live d key data).resets = [] ∧ IllegalDescriptor d
    here 0x0000000000000000 [] [] ∧ here 0x0000000000000004 [] [] ∧ here 0x000000020000000F [] [7, 8] ∧
    here 0x0000000100000082 [] [0xff] ∧ here 0x0000000000020002 [] [] ∧
    here 0x0000000300000401 [1, 2, 3, 4] [7, 8, 9] ∧ here 0x0000000000000202 [1, 2] [] := by
  refine ⟨?_, ?_, ?_, ?_, ?_, ?_, ?_⟩ <;>
    exact ⟨rfl, by decide +kernel, by decide +kernel, rfl, by decide +kernel⟩

theorem witness_KeyLengthIsNoEncodingError :
    (([1, 2, 3, 4] : List Byte).length = (4 : BitVec 9).toNat ∧
      ([7, 8] : List Byte).length = (2 : BitVec 32).toNat ∧ ¬ ValidKeyLength 4) ∧
    (key5.length = (5 : BitVec 9).toNat ∧ ([7, 8] : List Byte).length = (2 : BitVec 32).toNat) := by
  decide

theorem witness_OnlyMismatchedRecordsAreRefused :
    (Instr.init 5 key5).wellFormed = true ∧ (Instr.init 4 key5).wellFormed = false ∧
    (Instr.apply 2 [7, 8]).wellFormed = true ∧ (Instr.apply 3 [7, 8]).wellFormed = false ∧
    (Instr.applyStatic 5 1 key5 [9]).wellFormed = true ∧
    (Instr.applyStatic 5 0 key5 [9]).wellFormed = false := by decide

/-- ILLEGAL records that fit, and that do not in the key or in the data; and states at `EXEC` that hold an
illegal and a legal descriptor, with payloads that fit and that do not. -/
theorem witness_OnlyMismatchedRecordsAreRefused_illegal :
    let d : Descriptor := 0x0000000300000401
    let u : Descriptor := 0x0000000200000002
    IllegalDescriptor d ∧ ¬ IllegalDescriptor u ∧
    (([1, 2, 3, 4] : List Byte).length = d.klen.toNat ∧ ([7, 8, 9] : List Byte).length = d.dlen.toNat) ∧
    ([1, 2, 3] : List Byte).length ≠ d.klen.toNat ∧ ([7, 8] : List Byte).length ≠ d.dlen.toNat ∧
    (([] : List Byte).length = u.klen.toNat ∧ ([7, 8] : List Byte).length = u.dlen.toNat) ∧
    ([7] : List Byte).length ≠ u.dlen.toNat ∧
    (atExec live d [1, 2, 3] [7, 8, 9]).frame = .exec d [1, 2, 3] [7, 8, 9] ∧
    (atExec live d [1, 2, 3, 4] [7, 8, 9]).frame = .exec d [1, 2, 3, 4] [7, 8, 9] ∧
    (atExec live u [] [7]).frame = .exec u [] [7] ∧
    (atExec live u [] [7, 8]).frame = .exec u [] [7, 8] ∧ live.resets.head? ≠ some 0 := by
  refine ⟨?_, ?_, ?_, ?_, ?_, ?_, ?_, rfl, rfl, rfl, rfl, ?_⟩ <;> decide +kernel

/-- With no reset to come, with one to come later, and a table word. -/
theorem witness_StepRunsTheDecodedCommand :
    (let s := atExec live 0x0000000200000002 [] [7, 8]
     s.frame = .exec 0x0000000200000002 [] [7, 8] ∧
        decodeCommand 0x0000000200000002 [] [7, 8] = .ok (.apply 2 [7, 8]) ∧
        s.resets.head? ≠ some 0 ∧ s.resets = []) ∧
    (let s := atExec { live with resets := [1, 0] } 0x0000000200000002 [] [7, 8]
     s.frame = .exec 0x0000000200000002 [] [7, 8] ∧
        decodeCommand 0x0000000200000002 [] [7, 8] = .ok (.apply 2 [7, 8]) ∧
        s.resets.head? ≠ some 0) ∧
    decodeTableWord 64 0x0000000000000501 = some (.init 5 [0, 0, 0, 0, 0]) :=
  ⟨⟨rfl, by decide, by decide +kernel, rfl⟩, ⟨rfl, by decide, by decide +kernel⟩, by decide⟩

/-! ### Witnesses: the framing -/

/-- A descriptor with KLEN 5 and DLEN 1. -/
def d51 : Descriptor := 0x0000000100000503

/-- The clauses of FramingTransitions about the count of steps before the next reset. -/
theorem witness_FramingTransitions_tick :
    live.resets = [] ∧ ({ live with resets := [1, 0] }).resets = (0 + 1) :: [0] := ⟨rfl, rfl⟩

/-- Each clause of FramingTransitions, at the edges of its range, with no reset to come and with one to come
that is not due. -/
theorem witness_FramingTransitions : ∀ rs ∈ [[], [1, 0], [7]],
    (let s := { live with frame := .desc [], cmdIn := [3], resets := rs }
     s.resets.head? ≠ some 0 ∧ s.frame = .desc [] ∧ s.cmdIn = 3 :: [] ∧ ([] : List Byte).length < 7) ∧
    (let s := { live with frame := .desc [3, 5, 0, 0, 1, 0], cmdIn := [0, 9], resets := rs }
     s.resets.head? ≠ some 0 ∧ s.frame = .desc [3, 5, 0, 0, 1, 0] ∧ s.cmdIn = 0 :: [9] ∧
        ([3, 5, 0, 0, 1, 0] : List Byte).length < 7) ∧
    (let s := { live with frame := .desc [3, 5, 0, 0, 1, 0, 0], cmdIn := [0, 9], resets := rs }
     s.resets.head? ≠ some 0 ∧ s.frame = .desc [3, 5, 0, 0, 1, 0, 0] ∧ s.cmdIn = 0 :: [9] ∧
        ([3, 5, 0, 0, 1, 0, 0] : List Byte).length = 7) ∧
    (let s := { live with frame := .key d51 [1, 2, 3, 4], cmdIn := [5, 9], resets := rs }
     s.resets.head? ≠ some 0 ∧ s.frame = .key d51 [1, 2, 3, 4] ∧ s.cmdIn = 5 :: [9] ∧
        ([1, 2, 3, 4] : List Byte).length < d51.klen.toNat) ∧
    (let s := { live with frame := .key d51 key5, resets := rs }
     s.resets.head? ≠ some 0 ∧ s.frame = .key d51 key5 ∧ key5.length = d51.klen.toNat) ∧
    (let s := { live with frame := .data d51 key5 [], cmdIn := [9], resets := rs }
     s.resets.head? ≠ some 0 ∧ s.frame = .data d51 key5 [] ∧ s.cmdIn = 9 :: [] ∧
        ([] : List Byte).length < d51.dlen.toNat) ∧
    (let s := { live with frame := .data d51 key5 [9], resets := rs }
     s.resets.head? ≠ some 0 ∧ s.frame = .data d51 key5 [9] ∧
        ([9] : List Byte).length = d51.dlen.toNat) ∧
    (let s := { live with frame := .resp [0, 9], takes := 1, resets := rs }
     s.resets.head? ≠ some 0 ∧ s.frame = .resp (0 :: [9]) ∧ s.takes = 0 + 1) ∧
    (let s := { live with frame := .resp [], resets := rs }
     s.resets.head? ≠ some 0 ∧ s.frame = .resp []) := by
  intro rs hrs
  have h : rs.head? ≠ some 0 := by revert rs; decide
  refine ⟨⟨h, rfl, rfl, ?_⟩, ⟨h, rfl, rfl, ?_⟩, ⟨h, rfl, rfl, ?_⟩, ⟨h, rfl, rfl, ?_⟩, ⟨h, rfl, ?_⟩,
    ⟨h, rfl, rfl, ?_⟩, ⟨h, rfl, ?_⟩, ⟨h, rfl, rfl⟩, h, rfl⟩ <;> decide

/-- Each wait, with a reset to come after one step and after eight. -/
theorem witness_WaitingHoldsTheWholeState : ∀ n ∈ [0, 7],
    (let s := { live with frame := .desc [], resets := [n + 1] }
     s.resets = (n + 1) :: [] ∧ s.frame = .desc [] ∧ s.cmdIn = []) ∧
    (let s := { live with frame := .desc [3], resets := [n + 1] }
     s.resets = (n + 1) :: [] ∧ s.frame = .desc [3] ∧ s.cmdIn = []) ∧
    (let s := { live with frame := .key d51 [1, 2, 3, 4], resets := [n + 1, 0] }
     s.resets = (n + 1) :: [0] ∧ s.frame = .key d51 [1, 2, 3, 4] ∧
        ([1, 2, 3, 4] : List Byte).length < d51.klen.toNat ∧ s.cmdIn = []) ∧
    (let s := { live with frame := .data d51 key5 [], resets := [n + 1] }
     s.resets = (n + 1) :: [] ∧ s.frame = .data d51 key5 [] ∧
        ([] : List Byte).length < d51.dlen.toNat ∧ s.cmdIn = []) ∧
    (let s := { live with frame := .resp [9], resets := [n + 1] }
     s.resets = (n + 1) :: [] ∧ s.frame = .resp (9 :: []) ∧ s.takes = 0) := fun _ _ =>
  ⟨⟨rfl, rfl, rfl⟩, ⟨rfl, rfl, rfl⟩, ⟨rfl, rfl, by decide, rfl⟩, ⟨rfl, rfl, by decide, rfl⟩, rfl, rfl,
    rfl⟩

theorem witness_WholeCommandIsReceived :
    let s := atDesc live (d51.toBytes ++ key5 ++ [9] ++ [0xEE]) 0
    s.frame = .desc [] ∧ s.resets = [] ∧ key5.length = d51.klen.toNat ∧
      ([9] : List Byte).length = d51.dlen.toNat ∧
      s.cmdIn = d51.toBytes ++ key5 ++ [9] ++ [0xEE] := ⟨rfl, rfl, by decide, by decide, rfl⟩

/-- A host that takes exactly the response, and one that takes more. -/
theorem witness_ResponseIsDrained :
    (let s := { live with frame := .resp [0, 9], takes := 2 }
     s.frame = .resp [0, 9] ∧ s.resets = [] ∧ ([0, 9] : List Byte).length ≤ s.takes) ∧
    (let s := { live with frame := .resp [0, 9], takes := 5 }
     s.frame = .resp [0, 9] ∧ s.resets = [] ∧ ([0, 9] : List Byte).length ≤ s.takes) :=
  ⟨⟨rfl, rfl, by decide⟩, rfl, rfl, by decide⟩

/-- One command of each row, one byte of the next one behind it. -/
theorem witness_CommandRunsAsOneExec :
    let fits (i : Instr) :=
      let s := atDesc live (encode i ++ [0xEE]) (1 + i.dataPayload.length)
      i.wellFormed = true ∧ s.frame = .desc [] ∧ s.resets = [] ∧ s.cmdIn = encode i ++ [0xEE] ∧
        1 + i.dataPayload.length ≤ s.takes
    fits (.init 5 key5) ∧ fits (.init 4 [1, 2, 3, 4]) ∧ fits (.apply 2 [7, 8]) ∧
      fits (.applyStatic 5 1 key5 [9]) := by
  refine ⟨?_, ?_, ?_, ?_⟩ <;> exact ⟨by decide, rfl, rfl, rfl, Nat.le_refl _⟩

/-- Each case of StuckExactlyWhenTheHostIsDone, on the side that says the state. -/
theorem witness_StuckExactlyWhenTheHostIsDone :
    (let s := { live with frame := .desc [] }
     s.resets = [] ∧ s.frame = .desc [] ∧ s.cmdIn = []) ∧
    (let s := { live with frame := .desc [3] }
     s.resets = [] ∧ s.frame = .desc [3] ∧ s.cmdIn = []) ∧
    (let s := { live with frame := .key d51 [1, 2, 3, 4] }
     s.resets = [] ∧ s.frame = .key d51 [1, 2, 3, 4] ∧
        ([1, 2, 3, 4] : List Byte).length < d51.klen.toNat ∧ s.cmdIn = []) ∧
    (let s := { live with frame := .data d51 key5 [] }
     s.resets = [] ∧ s.frame = .data d51 key5 [] ∧ ([] : List Byte).length < d51.dlen.toNat ∧
        s.cmdIn = []) ∧
    (let s := { live with frame := .resp [9] }
     s.resets = [] ∧ s.frame = .resp (9 :: []) ∧ s.takes = 0) :=
  ⟨⟨rfl, rfl, rfl⟩, ⟨rfl, rfl, rfl⟩, ⟨rfl, rfl, by decide, rfl⟩, ⟨rfl, rfl, by decide, rfl⟩, rfl, rfl,
    rfl⟩

/-- A step that consumes a byte, and one that gives a byte. -/
theorem witness_StreamsMoveInOrder :
    (∃ t, step { live with frame := .desc [], cmdIn := [3, 5] } = .next t ∧ t.cmdIn = [5]) ∧
    (∃ t, step { live with frame := .resp [9], takes := 1 } = .next t ∧ t.respOut = [9]) :=
  ⟨⟨_, rfl, rfl⟩, _, rfl, rfl⟩

/-- A reset in every framing state. -/
theorem witness_ResetAbandonsTheCommand :
    ∀ f ∈ [Frame.desc [3], .key d51 [1], .data d51 key5 [], .exec d51 key5 [9], .resp [0, 9]],
      ({ live with frame := f, resets := [0, 7] }).resets = 0 :: [7] := fun _ _ => rfl

/-- Two pasts as different as they can be: a session in `EXEC`, and none in `KEY(r)`. -/
theorem witness_ResetForgetsThePast :
    let s : State := { live with frame := .exec d51 key5 [9], resets := [0, 7], cmdIn := [3], takes := 2 }
    let t : State := { State.reset with frame := .key d51 [1], resets := [0, 7], cmdIn := [3], takes := 2 }
    s.resets.head? = some 0 ∧ s.resets = t.resets ∧ s.cmdIn = t.cmdIn ∧ s.takes = t.takes ∧
      s.respOut = t.respOut ∧ s.frame ≠ t.frame :=
  ⟨rfl, rfl, rfl, rfl, rfl, by decide⟩

/-! ### Witnesses: invariants and whole-machine rules -/

/-- A state with a session, ready to run an APPLY, meets the invariant. -/
theorem live_atExec_inv : (atExec live 0x0000000200000002 [] [7, 8]).Inv :=
  ⟨fun _ => identityTable_isPermutation, by decide, by decide⟩

theorem step_live_atExec : step (atExec live 0x0000000200000002 [] [7, 8]) =
    .next (applyState [7, 8] (atExec live 0x0000000200000002 [] [7, 8])) := by
  rw [← exec_apply_live (s := atExec live 0x0000000200000002 [] [7, 8]) rfl 2 [7, 8] (by decide)]
  unfold step
  rw [if_neg (by decide +kernel), tick_of_no_resets rfl]
  rfl

theorem witness_StepKeepsInvariant :
    (atExec live 0x0000000200000002 [] [7, 8]).Inv ∧
    ∃ t, step (atExec live 0x0000000200000002 [] [7, 8]) = .next t ∧ t.valid = true :=
  ⟨live_atExec_inv, _, step_live_atExec, rfl⟩

theorem witness_SessionTableStaysPermutation :
    (atExec live 0x0000000200000002 [] [7, 8]).Inv ∧
    ∃ t, runSteps 1 (atExec live 0x0000000200000002 [] [7, 8]) = .next t ∧ t.valid = true :=
  ⟨live_atExec_inv, _, by rw [runSteps_succ_next step_live_atExec]; rfl, rfl⟩

theorem witness_SoundStatesAreNeverRefused : (atExec live 0x0000000200000002 [] [7, 8]).Inv :=
  live_atExec_inv

theorem step_init_key5 (s : State) (hr : s.resets = []) :
    step (atExec s 0x0000000000000501 key5 []) =
      .next (initState 5 key5 (atExec s 0x0000000000000501 key5 [])) := by
  rw [← exec_init_key5]
  unfold step
  rw [if_neg (by simp [resetDue, atExec, hr]), tick_of_no_resets (by exact hr)]
  rfl

/-- Both clauses: an INIT from reset, and a reset of a session. -/
theorem witness_ValidChangesOnlyByInitAndReset :
    (∃ t, step (atExec State.reset 0x0000000000000501 key5 []) = .next t ∧
      (atExec State.reset 0x0000000000000501 key5 []).valid = false ∧ t.valid = true) ∧
    (∃ t, step { live with resets := [0] } = .next t ∧
      ({ live with resets := [0] }).valid = true ∧ t.valid = false) :=
  ⟨⟨_, step_init_key5 _ rfl, rfl, rfl⟩, _, rfl, rfl, rfl⟩

/-- All three causes: a reset, an INIT and an APPLY. -/
theorem witness_SessionChangesOnlyByItsCommands :
    (∃ t, step { live with resets := [0] } = .next t ∧ t.session ≠ live.session) ∧
    (∃ t, step (atExec live 0x0000000000000501 key5 []) = .next t ∧ t.session ≠ live.session) ∧
    (∃ t, step (atExec live 0x0000000200000002 [] [7, 8]) = .next t ∧ t.session ≠ live.session) := by
  refine ⟨⟨_, rfl, fun h => ?_⟩, ⟨_, step_init_key5 _ rfl, fun h => ?_⟩, _, step_live_atExec, fun h => ?_⟩
  · have : readEntry zeroTable 1 = readEntry identityTable 1 :=
      congrArg (fun p : PermState => readEntry p.table 1) h
    revert this
    decide +kernel
  · have : (readEntry (scheduledSession zeroTable 5 key5).table 1).toNat = 1 := by
      rw [initState_session] at h
      rw [show scheduledSession zeroTable 5 key5 = live.session from h]
      show (readEntry identityTable 1).toNat = 1
      rw [readEntry_identityTable]
      rfl
    rw [readEntry_scheduledSession _ 5 key5 (by decide) (by decide)] at this
    revert this
    decide +kernel
  · have : (2 : Byte) = 0 := congrArg PermState.i h
    revert this
    decide

/-- Reset as the model has it, and a state with other values wherever the spec leaves the value open. -/
theorem witness_UnspecifiedStateIsNeverObservable :
    let t : State := { State.reset with
      session := ⟨identityTable, 7, 9⟩, scratch := ⟨identityTable, 1, 2⟩, ki := 256, kj := 3, kl := 5,
      kbuf := identityTable, draws := 4 }
    HostEquiv State.reset t ∧ State.reset ≠ t := by
  refine ⟨⟨rfl, fun h => ?_, rfl, rfl, rfl, rfl, rfl⟩, fun h => ?_⟩
  · cases h
  · have : (0 : Byte) = 3 := congrArg State.kj h
    revert this
    decide

theorem witness_RunsCannotRevealUnspecifiedState :
    HostEquiv State.reset { State.reset with kj := 3, kbuf := identityTable } :=
  ⟨rfl, fun _ => rfl, rfl, rfl, rfl, rfl, rfl⟩

theorem witness_ObservationDependsOnTheHostsViewOnly :
    let s : State := { State.reset with cmdIn := [3] }
    HostEquiv s { s with kj := 3, kbuf := identityTable } ∧ ∃ u, runSteps 1 s = .next u :=
  ⟨⟨rfl, fun _ => rfl, rfl, rfl, rfl, rfl, rfl⟩, _, rfl⟩

end Sys2Proof.Tests
end

section
/-! SUPPORT and PROOFS of the family `00_scope.md`: a step in `EXEC` is the decoded command, and a
whole command runs from `DESC(0)` to `DESC(0)` as reception, one `exec` and delivery (R13, R68). -/

namespace Sys2Proof

/-! ### Descriptor bytes and decoding -/

/-- R47, whatever the number of stream bytes: bit n of a descriptor is bit `n % 8` of stream
byte `n / 8`. -/
theorem ofBytes_getLsbD (bs : List Byte) (n : Nat) (hn : n < 64) :
    (Descriptor.ofBytes bs).getLsbD n = (bs.getD (n / 8) 0).getLsbD (n % 8) := by
  induction bs generalizing n with
  | nil => simp [Descriptor.ofBytes]
  | cons b bs ih =>
    rw [ofBytes_cons_getLsbD b bs n hn]
    split_ifs with h
    · rw [Nat.div_eq_of_lt h, Nat.mod_eq_of_lt h, List.getD_cons_zero]
    · obtain ⟨m, rfl⟩ : ∃ m, n = m + 8 := ⟨n - 8, by omega⟩
      rw [Nat.add_sub_cancel, ih m (by omega), Nat.add_div_right m (by omega),
        Nat.add_mod_right, List.getD_cons_succ]

/-- R47: the eight stream bytes of a descriptor carry that descriptor. -/
@[simp] theorem ofBytes_toBytes (d : Descriptor) : Descriptor.ofBytes d.toBytes = d := by
  refine BitVec.eq_of_getLsbD_eq fun n hn => ?_
  rw [ofBytes_getLsbD _ _ hn, List.getD_eq_getElem?_getD, toBytes_getElem d _ (by omega),
    Option.getD_some, BitVec.getLsbD_extractLsb', Nat.div_add_mod,
    decide_eq_true (Nat.mod_lt n (by omega)), Bool.true_and]

/-- The descriptor and the payloads of a command decode to it (R63, R64, R66). -/
@[simp] theorem decodeCommand_descriptor (i : Instr) :
    decodeCommand i.descriptor i.keyPayload i.dataPayload = .ok i := by
  cases i <;> simp [decodeCommand, Instr.descriptor, Instr.keyPayload, Instr.dataPayload]

/-- R76: the payloads of a well-formed command have the lengths its descriptor says. -/
theorem payload_lengths_of_wellFormed {i : Instr} (h : i.wellFormed = true) :
    i.keyPayload.length = i.descriptor.klen.toNat ∧
      i.dataPayload.length = i.descriptor.dlen.toNat := by
  cases i <;>
    simpa [Instr.wellFormed, Instr.descriptor, Instr.keyPayload, Instr.dataPayload] using h

/-- R60: a command's stream bytes are its descriptor's eight and its payloads. -/
theorem encode_length (i : Instr) :
    (encode i).length = 8 + i.keyPayload.length + i.dataPayload.length := by
  simp [encode, Nat.add_assoc]

/-- A table word gives the command its descriptor and payloads decode to, if any. -/
theorem decodeTableWord_eq_some_iff (nbits w : Nat) (i : Instr) :
    decodeTableWord nbits w = some i ↔
      decodeCommand (tableDescriptor nbits w) (tableKey nbits w) (tableData nbits w) = .ok i := by
  unfold decodeTableWord
  split
  next j hj => rw [hj, Option.some_inj, Except.ok.injEq]
  next e he => rw [he]; simp

end Sys2Proof

namespace Sys2Proof.Machine

/-! ### A step with no reset due, by framing state (R68) -/

section
variable {s : State} (hr : s.resets.head? ≠ some 0)
include hr

theorem step_of_desc {got : List Byte} (hf : s.frame = .desc got) :
    step s = descStep got (tick s) := by
  rw [step, if_neg (mt (resetDue_iff s).mp hr), hf]

theorem step_of_key {d : Descriptor} {got : List Byte} (hf : s.frame = .key d got) :
    step s = keyStep d got (tick s) := by
  rw [step, if_neg (mt (resetDue_iff s).mp hr), hf]

theorem step_of_data {d : Descriptor} {key got : List Byte} (hf : s.frame = .data d key got) :
    step s = dataStep d key got (tick s) := by
  rw [step, if_neg (mt (resetDue_iff s).mp hr), hf]

theorem step_of_exec_legal {d : Descriptor} {key data : List Byte} {i : Instr}
    (hf : s.frame = .exec d key data) (hd : decodeCommand d key data = .ok i) :
    step s = exec i (tick s) := by
  simp only [step, if_neg (mt (resetDue_iff s).mp hr), hf, hd]

theorem step_of_resp {left : List Byte} (hf : s.frame = .resp left) :
    step s = respStep left (tick s) := by
  rw [step, if_neg (mt (resetDue_iff s).mp hr), hf]

end

theorem no_reset_due {s : State} (h : s.resets = []) : s.resets.head? ≠ some 0 := by
  simp [h]

/-- A legal command in `EXEC` runs in the state itself when no reset is to come. -/
theorem step_eq_exec {s : State} {d : Descriptor} {key data : List Byte} {i : Instr}
    (hr : s.resets = []) (hf : s.frame = .exec d key data)
    (hd : decodeCommand d key data = .ok i) : step s = exec i s := by
  rw [step_of_exec_legal (no_reset_due hr) hf hd, tick_of_no_resets hr]

/-! ### What the framing does with a byte, when no reset is to come -/

section
variable {s : State} (hr : s.resets = [])
include hr

theorem step_desc_cons {got rest : List Byte} {b : Byte} (hf : s.frame = .desc got)
    (hc : s.cmdIn = b :: rest) :
    step s = .next { s with cmdIn := rest, frame := takeDescByte got b } := by
  rw [step_of_desc (no_reset_due hr) hf, tick_of_no_resets hr, descStep, hc]

theorem step_key_cons {d : Descriptor} {got rest : List Byte} {b : Byte}
    (hf : s.frame = .key d got) (hc : s.cmdIn = b :: rest) (hlt : got.length < d.klen.toNat) :
    step s = .next { s with cmdIn := rest, frame := .key d (got ++ [b]) } := by
  rw [step_of_key (no_reset_due hr) hf, tick_of_no_resets hr, keyStep, if_pos hlt, hc]

theorem step_key_full {d : Descriptor} {got : List Byte} (hf : s.frame = .key d got)
    (hlen : got.length = d.klen.toNat) :
    step s = .next { s with frame := .data d got [] } := by
  rw [step_of_key (no_reset_due hr) hf, tick_of_no_resets hr, keyStep, if_neg hlen.not_lt]

theorem step_data_cons {d : Descriptor} {key got rest : List Byte} {b : Byte}
    (hf : s.frame = .data d key got) (hc : s.cmdIn = b :: rest)
    (hlt : got.length < d.dlen.toNat) :
    step s = .next { s with cmdIn := rest, frame := .data d key (got ++ [b]) } := by
  rw [step_of_data (no_reset_due hr) hf, tick_of_no_resets hr, dataStep, if_pos hlt, hc]

theorem step_data_full {d : Descriptor} {key got : List Byte} (hf : s.frame = .data d key got)
    (hlen : got.length = d.dlen.toNat) :
    step s = .next { s with frame := .exec d key got } := by
  rw [step_of_data (no_reset_due hr) hf, tick_of_no_resets hr, dataStep, if_neg hlen.not_lt]

theorem step_resp_nil (hf : s.frame = .resp []) : step s = .next { s with frame := .desc [] } := by
  rw [step_of_resp (no_reset_due hr) hf, tick_of_no_resets hr, respStep]

theorem step_resp_cons {b : Byte} {left : List Byte} {n : Nat} (hf : s.frame = .resp (b :: left))
    (ht : s.takes = n + 1) :
    step s = .next { s with takes := n, respOut := s.respOut ++ [b], frame := .resp left } := by
  rw [step_of_resp (no_reset_due hr) hf, tick_of_no_resets hr, respStep, ht]

end

/-! ### Receiving a command (R60, R68) -/

theorem runSteps_one {s t : State} (h : step s = .next t) : runSteps 1 s = .next t :=
  runSteps_succ_next h

/-- Two runs, the second from where the first ends, are one run. -/
theorem runSteps_trans {a b : Nat} {s t u : State} (hst : runSteps a s = .next t)
    (htu : runSteps b t = .next u) : runSteps (a + b) s = .next u :=
  (runSteps_add hst).trans htu

/-- The framing states `mk got` store a byte per step while fewer than `bound` are stored. -/
def StoresUpTo (bound : Nat) (mk : List Byte → Frame) : Prop :=
  ∀ (s : State) (got rest : List Byte) (b : Byte), s.resets = [] → s.frame = mk got →
    s.cmdIn = b :: rest → got.length < bound →
    step s = .next { s with cmdIn := rest, frame := mk (got ++ [b]) }

theorem desc_storesUpTo : StoresUpTo 7 .desc := fun s got rest b hr hf hc hlt => by
  rw [step_desc_cons hr hf hc, takeDescByte, if_pos hlt]

theorem key_storesUpTo (d : Descriptor) : StoresUpTo d.klen.toNat (.key d) :=
  fun _ _ _ _ hr hf hc hlt => step_key_cons hr hf hc hlt

theorem data_storesUpTo (d : Descriptor) (key : List Byte) :
    StoresUpTo d.dlen.toNat (.data d key) :=
  fun _ _ _ _ hr hf hc hlt => step_data_cons hr hf hc hlt

/-- A storing framing state takes the next bytes of the stream in order, a step for each. -/
theorem StoresUpTo.run {bound : Nat} {mk : List Byte → Frame} (h : StoresUpTo bound mk)
    {s : State} {got bs rest : List Byte} (hr : s.resets = []) (hf : s.frame = mk got)
    (hc : s.cmdIn = bs ++ rest) (hlen : got.length + bs.length ≤ bound) :
    runSteps bs.length s = .next { s with cmdIn := rest, frame := mk (got ++ bs) } := by
  induction bs generalizing s got with
  | nil => rw [List.append_nil, ← hf, ← List.nil_append rest, ← hc]; rfl
  | cons b bs ih =>
    rw [List.length_cons] at hlen ⊢
    rw [List.cons_append] at hc
    have hrest := ih (s := { s with cmdIn := bs ++ rest, frame := mk (got ++ [b]) })
      (got := got ++ [b]) hr rfl rfl (by rw [List.length_append, List.length_singleton]; omega)
    rw [runSteps_succ_next (h s got _ b hr hf hc (by omega)), hrest, List.append_assoc,
      List.singleton_append]

/-- From `DESC(0)`, eight stream bytes are a descriptor, and the framing is at `KEY(KLEN)`. -/
theorem runSteps_desc {s : State} {bs rest : List Byte} (hr : s.resets = [])
    (hf : s.frame = .desc []) (hc : s.cmdIn = bs ++ rest) (hlen : bs.length = 8) :
    runSteps 8 s = .next { s with cmdIn := rest, frame := .key (Descriptor.ofBytes bs) [] } := by
  obtain rfl | ⟨first, last, rfl⟩ := List.eq_nil_or_concat bs
  · cases hlen
  have hfirst : first.length = 7 := by simpa using hlen
  have hseven := desc_storesUpTo.run (bs := first) (rest := last :: rest) hr hf
    (by simpa using hc) (by simp [hfirst])
  have heighth := runSteps_trans hseven (runSteps_one (step_desc_cons (by exact hr) rfl rfl))
  rwa [List.nil_append, takeDescByte, if_neg (by omega), hfirst,
    ← List.concat_eq_append] at heighth

/-- A whole key payload takes `KEY(KLEN)` to `DATA(DLEN)`. -/
theorem runSteps_key {s : State} {d : Descriptor} {key rest : List Byte} (hr : s.resets = [])
    (hf : s.frame = .key d []) (hc : s.cmdIn = key ++ rest) (hlen : key.length = d.klen.toNat) :
    runSteps (key.length + 1) s = .next { s with cmdIn := rest, frame := .data d key [] } := by
  have hstored := (key_storesUpTo d).run hr hf hc (by simp [hlen])
  exact runSteps_trans hstored (runSteps_one (step_key_full (by exact hr) rfl hlen))

/-- A whole data payload takes `DATA(DLEN)` to `EXEC`. -/
theorem runSteps_data {s : State} {d : Descriptor} {key data rest : List Byte}
    (hr : s.resets = []) (hf : s.frame = .data d key []) (hc : s.cmdIn = data ++ rest)
    (hlen : data.length = d.dlen.toNat) :
    runSteps (data.length + 1) s = .next { s with cmdIn := rest, frame := .exec d key data } := by
  have hstored := (data_storesUpTo d key).run hr hf hc (by simp [hlen])
  exact runSteps_trans hstored (runSteps_one (step_data_full (by exact hr) rfl hlen))

/-- R60, R68: a whole command on the stream, legal or not, is received from `DESC(0)` to `EXEC`. -/
theorem runSteps_receive {s : State} {d : Descriptor} {key data rest : List Byte}
    (hf : s.frame = .desc []) (hr : s.resets = []) (hkey : key.length = d.klen.toNat)
    (hdata : data.length = d.dlen.toNat) (hc : s.cmdIn = d.toBytes ++ key ++ data ++ rest) :
    runSteps (8 + key.length + data.length + 2) s =
      .next { s with cmdIn := rest, frame := .exec d key data } := by
  have hdesc := runSteps_desc (bs := d.toBytes) (rest := key ++ (data ++ rest)) hr hf
    (by simpa using hc) (toBytes_length d)
  rw [ofBytes_toBytes] at hdesc
  rw [show 8 + key.length + data.length + 2 = 8 + (key.length + 1 + (data.length + 1)) by omega]
  exact runSteps_trans hdesc
    (runSteps_trans (runSteps_key hr rfl rfl hkey) (runSteps_data hr rfl rfl hdata))

/-! ### Delivering a response (R44, R68) -/

/-- A host that takes a response in full has it in order, and the engine is then at `DESC(0)`. -/
theorem runSteps_deliver {s : State} {response : List Byte} (hf : s.frame = .resp response)
    (hr : s.resets = []) (hle : response.length ≤ s.takes) :
    runSteps (response.length + 1) s =
      .next { s with
        frame := .desc []
        takes := s.takes - response.length
        respOut := s.respOut ++ response } := by
  induction response generalizing s with
  | nil =>
    rw [runSteps_succ_next (step_resp_nil hr hf), List.append_nil]
    rfl
  | cons b left ih =>
    rw [List.length_cons] at hle ⊢
    obtain ⟨n, hn⟩ := Nat.exists_eq_add_of_le' (show 1 ≤ s.takes by omega)
    have hleft := ih (s := { s with takes := n, respOut := s.respOut ++ [b], frame := .resp left })
      rfl hr (by show left.length ≤ n; omega)
    rw [runSteps_succ_next (step_resp_cons hr hf hn), hleft, List.append_assoc,
      List.singleton_append, hn, Nat.add_sub_add_right]

/-! ### One `exec` -/

/-- R76, R170: a well-formed command completes, in any state. -/
theorem exec_next_of_wellFormed {i : Instr} (h : i.wellFormed = true) (s : State) :
    ∃ t, exec i s = .next t := by
  cases i with
  | init klen key =>
    have hlen : key.length = klen.toNat := by simpa [Instr.wellFormed] using h
    rw [exec, execInit_eq, if_pos hlen]
    split_ifs <;> exact ⟨_, rfl⟩
  | apply dlen data =>
    have hlen : data.length = dlen.toNat := by simpa [Instr.wellFormed] using h
    rw [exec, execApply_eq, if_pos hlen]
    split_ifs <;> exact ⟨_, rfl⟩
  | applyStatic klen dlen key data =>
    have hlen : key.length = klen.toNat ∧ data.length = dlen.toNat := by
      simpa [Instr.wellFormed] using h
    rw [exec, execApplyStatic_eq, if_pos hlen]
    split_ifs <;> exact ⟨_, rfl⟩

/-- R69: the response of a command is a status byte and as many bytes as it has data. -/
theorem exec_next_response {i : Instr} {s t : State} (h : exec i s = .next t) :
    ∃ (st : Status) (out : List Byte), t.frame = .resp (st.code :: out) ∧
      out.length = i.dataPayload.length := by
  cases exec_next_cases h with
  | init => exact ⟨.ok, [], rfl, rfl⟩
  | apply => exact ⟨.ok, _, rfl, applyKeystream_length _ _⟩
  | applyStatic => exact ⟨.ok, _, rfl, applyKeystream_length _ _⟩
  | failed e => exact ⟨e, _, rfl, rfl⟩

end Sys2Proof.Machine

open Sys2Proof Sys2Proof.Machine

/-- Settles O36: the run is cut into reception, the step in `EXEC`, which is the `exec`, and delivery. -/
theorem commandRunsAsOneExec : Obligations.CommandRunsAsOneExec := by
  unfold Obligations.CommandRunsAsOneExec
  intro s i rest hwf hf hr hc htakes
  obtain ⟨hkey, hdata⟩ := payload_lengths_of_wellFormed hwf
  have hreceive := runSteps_receive hf hr hkey hdata hc
  obtain ⟨t, ht⟩ := exec_next_of_wellFormed hwf
    { s with cmdIn := rest, frame := .exec i.descriptor i.keyPayload i.dataPayload }
  have hexec := runSteps_one
    ((step_eq_exec (by exact hr) rfl (decodeCommand_descriptor i)).trans ht)
  obtain ⟨st, out, hresp, hout⟩ := exec_next_response ht
  obtain ⟨-, -, htakesEq, hrespOut, hresets⟩ := exec_next_shape ht
  have hlen : (st.code :: out).length = 1 + i.dataPayload.length := by
    rw [List.length_cons, hout, Nat.add_comm]
  have hdeliver := runSteps_deliver hresp (hresets.trans hr)
    (by rw [hlen, htakesEq]; exact htakes)
  rw [htakesEq, hrespOut] at hdeliver
  refine ⟨t, st.code :: out, ht, hresp, hlen, ?_⟩
  rw [encode_length]
  exact runSteps_trans (runSteps_trans hreceive hexec) hdeliver

/-- Settles O32: in `EXEC` the step decodes what the framing took, and `tick` changes nothing where no reset
is to come. -/
theorem stepRunsTheDecodedCommand : Obligations.StepRunsTheDecodedCommand := by
  unfold Obligations.StepRunsTheDecodedCommand
  refine ⟨fun s d key data i hf hd hr => ⟨step_of_exec_legal hr hf hd, fun hnone =>
    step_eq_exec hnone hf hd⟩, fun s nbits w i hw => ?_⟩
  exact step_eq_exec rfl rfl ((decodeTableWord_eq_some_iff nbits w i).mp hw)
end

section
/-! SUPPORT and PROOFS of the family `10_state.md`: what a step does to the session and to
VALID, said once, and from it the invariant of R23 and the rules R26 and R27; what INIT and APPLY
leave in the session (R24, R38); and that no step tells apart what the spec leaves unspecified
(R36). -/

namespace Sys2Proof.Machine

/-! ### The scheduled table (R94) -/

theorem ksaRun_isPermutation (kbuf : Table) (kl : BitVec 9) (n : Nat) :
    IsPermutation (ksaRun kbuf kl n).1 := by
  induction n with
  | zero => exact identityTable_isPermutation
  | succ n ih => exact ksaStep_isPermutation kbuf kl n ih

theorem ksa_isPermutation (kbuf : Table) (kl : BitVec 9) : IsPermutation (ksa kbuf kl).1 := by
  rw [ksa_eq_ksaRun]
  exact ksaRun_isPermutation kbuf kl 256

theorem scheduledSession_isPermutation (kbuf : Table) (klen : BitVec 9) (key : List Byte) :
    IsPermutation (scheduledSession kbuf klen key).table :=
  ksa_isPermutation _ _

@[simp] theorem scheduledSession_i (kbuf : Table) (klen : BitVec 9) (key : List Byte) :
    (scheduledSession kbuf klen key).i = 0 := rfl

/-! ### What a step does to the session and to VALID (R26, R27) -/

/-- Everything a step that answers a next state can have done to S, i, j and VALID. -/
inductive SessionDid (s : State) : State → Prop
  /-- A reset was due. -/
  | reset (h : s.resets.head? = some 0) : SessionDid s (resetEngine s)
  /-- INIT scheduled its key. -/
  | init {d kp dp klen key} (hf : s.frame = .exec d kp dp)
    (hd : decodeCommand d kp dp = .ok (.init klen key)) (hk : ValidKeyLength klen) :
    SessionDid s (initState klen key (tick s))
  /-- APPLY advanced the session. -/
  | apply {d kp dp dlen data} (hf : s.frame = .exec d kp dp)
    (hd : decodeCommand d kp dp = .ok (.apply dlen data)) (hlen : data.length = dlen.toNat)
    (hv : s.valid = true) : SessionDid s (applyState data (tick s))
  /-- Every other step leaves them as they were. -/
  | kept {t} (hs : t.session = s.session) (hv : t.valid = s.valid) : SessionDid s t

/-- The inversion of `step` for the session. -/
theorem step_session_cases {s t : State} (h : step s = .next t) : SessionDid s t := by
  cases step_next_cases h with
  | reset hr => exact .reset hr
  | command hf hd ht =>
    cases exec_next_cases ht with
    | init _ hk => exact .init hf hd hk
    | apply hlen hv => exact .apply hf hd hlen hv
    | applyStatic => exact .kept rfl rfl
    | failed => exact .kept rfl rfl
  | waited | desc | key | keyDone | data | dataDone | illegal | resp | respDone =>
    exact .kept rfl rfl

/-- An APPLY without data leaves the session alone. -/
theorem applyState_session_nil (s : State) : (applyState [] s).session = s.session := rfl

/-! ### The invariant (R23, R68) -/

/-- Every step keeps S a permutation while there is a session. -/
theorem step_keeps_perm {s t : State} (h : step s = .next t)
    (hperm : s.valid = true → IsPermutation s.session.table) (hv : t.valid = true) :
    IsPermutation t.session.table := by
  cases step_session_cases h with
  | reset => cases hv
  | init => exact scheduledSession_isPermutation _ _ _
  | apply _ _ _ hvs => exact applyKeystream_isPermutation (hperm hvs) _
  | kept hs hvs =>
    rw [hs]
    exact hperm (hvs.symm.trans hv)

@[simp] theorem sound_desc (got : List Byte) : (Frame.desc got).Sound ↔ got.length ≤ 7 := Iff.rfl
@[simp] theorem sound_key (d : Descriptor) (got : List Byte) :
    (Frame.key d got).Sound ↔ got.length ≤ d.klen.toNat := Iff.rfl
@[simp] theorem sound_data (d : Descriptor) (key got : List Byte) :
    (Frame.data d key got).Sound ↔
      key.length = d.klen.toNat ∧ got.length ≤ d.dlen.toNat := Iff.rfl
@[simp] theorem sound_exec (d : Descriptor) (key data : List Byte) :
    (Frame.exec d key data).Sound ↔
      key.length = d.klen.toNat ∧ data.length = d.dlen.toNat := Iff.rfl
@[simp] theorem sound_resp (left : List Byte) : (Frame.resp left).Sound := trivial

theorem takeDescByte_sound (got : List Byte) (b : Byte) : (takeDescByte got b).Sound := by
  unfold takeDescByte
  split_ifs with hlt
  · simpa using hlt
  · simp

/-- Every step leaves a framing state that R68 reaches. -/
theorem step_keeps_sound {s t : State} (h : step s = .next t) (hs : s.frame.Sound) :
    t.frame.Sound := by
  cases step_next_cases h with
  | reset => simp
  | waited => exact hs
  | desc => exact takeDescByte_sound _ _
  | key hf hc hlt => simpa using hlt
  | keyDone hf hge =>
    rw [hf, sound_key] at hs
    simpa using le_antisymm hs hge
  | data hf hc hlt =>
    rw [hf, sound_data] at hs
    simpa using ⟨hs.1, hlt⟩
  | dataDone hf hge =>
    rw [hf, sound_data] at hs
    simpa using ⟨hs.1, le_antisymm hs.2 hge⟩
  | command _ _ ht =>
    obtain ⟨⟨st, out, hresp⟩, -⟩ := exec_next_shape ht
    rw [hresp]
    exact sound_resp _
  | illegal => exact sound_resp _
  | resp => exact sound_resp _
  | respDone => simp

theorem step_keeps_inv {s t : State} (hs : s.Inv) (h : step s = .next t) : t.Inv :=
  ⟨step_keeps_perm h hs.perm, step_keeps_sound h hs.frame⟩

/-- What every step keeps holds at the end of every run. -/
theorem runSteps_keeps {P : State → Prop} (hstep : ∀ {s t}, P s → step s = .next t → P t)
    {n : Nat} {s t : State} (hs : P s) (h : runSteps n s = .next t) : P t := by
  induction n generalizing s with
  | zero => cases h; exact hs
  | succ n ih =>
    rw [runSteps_succ] at h
    cases hu : step s with
    | next u => rw [hu] at h; exact ih (hstep hs hu) h
    | fault f => rw [hu] at h; cases h
    | refused r => rw [hu] at h; cases h

/-! ### INIT and APPLY when they succeed -/

theorem exec_init_valid {klen : BitVec 9} {key : List Byte} (hlen : key.length = klen.toNat)
    (hk : ValidKeyLength klen) (s : State) :
    exec (.init klen key) s = .next (initState klen key s) := by
  rw [exec, execInit_eq, if_pos hlen, if_pos hk]

theorem exec_apply_valid {dlen : BitVec 32} {data : List Byte} (hlen : data.length = dlen.toNat)
    {s : State} (hv : s.valid = true) :
    exec (.apply dlen data) s = .next (applyState data s) := by
  rw [exec, execApply_eq, if_pos hlen, if_pos hv]

/-- R24: each PRGA step advances the first cursor by 1 mod 256. -/
theorem refAfter_x (p : RefState) (n : Nat) : (refAfter p n).x = p.x + BitVec.ofNat 8 n := by
  induction n with
  | zero => simp [refAfter]
  | succ n ih =>
    show (refAfter p n).x + 1#8 = _
    rw [ih, BitVec.ofNat_add, BitVec.add_assoc]

theorem applyKeystream_i (p : PermState) (data : List Byte) :
    (applyKeystream p data).1.i = p.i + BitVec.ofNat 8 data.length := by
  have h := congrArg RefState.x (applyKeystream_ref p data)
  rwa [refAfter_x] at h

/-! ### What a host cannot tell apart (R36) -/

section
variable {s t : State} (h : HostEquiv s t)
include h

theorem HostEquiv.tick : HostEquiv (tick s) (tick t) :=
  ⟨h.valid, h.session, h.frame, h.cmdIn, h.takes, h.respOut, congrArg countDown h.resets⟩

theorem HostEquiv.resetEngine : HostEquiv (resetEngine s) (resetEngine t) :=
  ⟨rfl, fun _ => rfl, rfl, h.cmdIn, h.takes, h.respOut, congrArg List.tail h.resets⟩

theorem HostEquiv.withFrame (f : Frame) : HostEquiv { s with frame := f } { t with frame := f } :=
  ⟨h.valid, h.session, rfl, h.cmdIn, h.takes, h.respOut, h.resets⟩

theorem HostEquiv.withCmdInFrame (rest : List Byte) (f : Frame) :
    HostEquiv { s with cmdIn := rest, frame := f } { t with cmdIn := rest, frame := f } :=
  ⟨h.valid, h.session, rfl, rfl, h.takes, h.respOut, h.resets⟩

theorem HostEquiv.finish (st : Status) (out : List Byte) :
    HostEquiv (finish st out s) (finish st out t) :=
  h.withFrame _

/-- A wait ends alike. -/
theorem waitFor_hostEquiv (f : Fault) : OutcomeEquiv (waitFor f s) (waitFor f t) := by
  unfold waitFor
  rw [← h.resets]
  split_ifs
  · exact rfl
  · exact h

theorem descStep_hostEquiv (got : List Byte) :
    OutcomeEquiv (descStep got s) (descStep got t) := by
  unfold descStep
  rw [← h.cmdIn]
  split
  · exact waitFor_hostEquiv h _
  · exact h.withCmdInFrame _ _

theorem keyStep_hostEquiv (d : Descriptor) (got : List Byte) :
    OutcomeEquiv (keyStep d got s) (keyStep d got t) := by
  unfold keyStep
  split_ifs
  · rw [← h.cmdIn]
    split
    · exact waitFor_hostEquiv h _
    · exact h.withCmdInFrame _ _
  · exact h.withFrame _

theorem dataStep_hostEquiv (d : Descriptor) (key got : List Byte) :
    OutcomeEquiv (dataStep d key got s) (dataStep d key got t) := by
  unfold dataStep
  split_ifs
  · rw [← h.cmdIn]
    split
    · exact waitFor_hostEquiv h _
    · exact h.withCmdInFrame _ _
  · exact h.withFrame _

theorem respStep_hostEquiv (left : List Byte) :
    OutcomeEquiv (respStep left s) (respStep left t) := by
  unfold respStep
  split
  · exact h.withFrame _
  · rw [← h.takes, ← h.respOut]
    split
    · exact waitFor_hostEquiv h _
    · exact ⟨h.valid, h.session, rfl, h.cmdIn, rfl, rfl, h.resets⟩

theorem execIllegal_hostEquiv (d : Descriptor) (key data : List Byte) :
    OutcomeEquiv (execIllegal d key data s) (execIllegal d key data t) := by
  rw [execIllegal_eq, execIllegal_eq]
  split_ifs
  · exact h.finish _ _
  · exact rfl

/-- INIT overwrites the whole session, and what KBUF held plays no part (R32, R42). -/
theorem HostEquiv.initState {klen : BitVec 9} {key : List Byte} (hlen : key.length = klen.toNat)
    (hk : ValidKeyLength klen) : HostEquiv (initState klen key s) (initState klen key t) := by
  refine ⟨?_, fun _ => ?_, ?_, h.cmdIn, h.takes, h.respOut, h.resets⟩
  · rw [initState_valid, initState_valid]
  · rw [initState_session, initState_session,
      scheduledSession_kbuf s.kbuf t.kbuf klen key hlen hk]
  · rw [initState_frame, initState_frame]

/-- APPLY reads the session only while there is one. -/
theorem HostEquiv.applyState (hv : s.valid = true) (data : List Byte) :
    HostEquiv (applyState data s) (applyState data t) := by
  have hp := h.session hv
  refine ⟨h.valid, fun _ => ?_, ?_, h.cmdIn, h.takes, h.respOut, h.resets⟩
  · rw [applyState_session, applyState_session, hp]
  · rw [applyState_frame, applyState_frame, hp]

/-- APPLY_STATIC leaves the session alone, and neither KBUF nor the scratch context play a part. -/
theorem HostEquiv.applyStaticState {klen : BitVec 9} {key : List Byte}
    (hlen : key.length = klen.toNat) (hk : ValidKeyLength klen) (data : List Byte) :
    HostEquiv (applyStaticState klen key data s) (applyStaticState klen key data t) := by
  refine ⟨h.valid, h.session, ?_, h.cmdIn, h.takes, h.respOut, h.resets⟩
  rw [applyStaticState_frame, applyStaticState_frame,
    scheduledSession_kbuf s.kbuf t.kbuf klen key hlen hk]

theorem exec_hostEquiv (i : Instr) : OutcomeEquiv (exec i s) (exec i t) := by
  cases i with
  | init klen key =>
    simp only [exec, execInit_eq]
    split_ifs with hlen hk
    · exact h.initState hlen hk
    · exact h.finish _ _
    · exact rfl
  | apply dlen data =>
    simp only [exec, execApply_eq, ← h.valid]
    split_ifs with hlen hv
    · exact h.applyState hv data
    · exact h.finish _ _
    · exact rfl
  | applyStatic klen dlen key data =>
    simp only [exec, execApplyStatic_eq]
    split_ifs with hlen hk
    · exact h.applyStaticState hlen.1 hk data
    · exact h.finish _ _
    · exact rfl

end

theorem step_of_reset_due {s : State} (hr : s.resets.head? = some 0) :
    step s = .next (resetEngine s) := by
  rw [step, if_pos ((resetDue_iff s).mpr hr)]

theorem step_of_exec_illegal {s : State} (hr : s.resets.head? ≠ some 0) {d : Descriptor}
    {key data : List Byte} {e : DecodeError} (hf : s.frame = .exec d key data)
    (hd : decodeCommand d key data = .error e) :
    step s = execIllegal d key data (tick s) := by
  simp only [step, if_neg (mt (resetDue_iff s).mp hr), hf, hd]

/-- R36: a step of two states no host can tell apart has one outcome, up to what no host can see. -/
theorem step_hostEquiv {s t : State} (h : HostEquiv s t) : OutcomeEquiv (step s) (step t) := by
  by_cases hr : s.resets.head? = some 0
  · rw [step_of_reset_due hr, step_of_reset_due (h.resets ▸ hr)]
    exact h.resetEngine
  have hrt : t.resets.head? ≠ some 0 := h.resets ▸ hr
  cases hf : s.frame with
  | desc got =>
    rw [step_of_desc hr hf, step_of_desc hrt (h.frame ▸ hf)]
    exact descStep_hostEquiv h.tick got
  | key d got =>
    rw [step_of_key hr hf, step_of_key hrt (h.frame ▸ hf)]
    exact keyStep_hostEquiv h.tick d got
  | data d key got =>
    rw [step_of_data hr hf, step_of_data hrt (h.frame ▸ hf)]
    exact dataStep_hostEquiv h.tick d key got
  | exec d key data =>
    cases hd : decodeCommand d key data with
    | ok i =>
      rw [step_of_exec_legal hr hf hd, step_of_exec_legal hrt (h.frame ▸ hf) hd]
      exact exec_hostEquiv h.tick i
    | error e =>
      rw [step_of_exec_illegal hr hf hd, step_of_exec_illegal hrt (h.frame ▸ hf) hd]
      exact execIllegal_hostEquiv h.tick d key data
  | resp left =>
    rw [step_of_resp hr hf, step_of_resp hrt (h.frame ▸ hf)]
    exact respStep_hostEquiv h.tick left

theorem runSteps_hostEquiv {s t : State} (h : HostEquiv s t) (n : Nat) :
    OutcomeEquiv (runSteps n s) (runSteps n t) := by
  induction n generalizing s t with
  | zero => exact h
  | succ n ih =>
    have hstep := step_hostEquiv h
    rw [runSteps_succ, runSteps_succ]
    exact match step s, step t, hstep with
      | .next _, .next _, hnext => ih hnext
      | .fault _, .fault _, hfault => hfault
      | .refused _, .refused _, hrefused => hrefused

end Sys2Proof.Machine

open Sys2Proof Sys2Proof.Machine

/-- Settles O43: the permutation and the framing state are kept one by one, each by the cases of
a step. -/
theorem stepKeepsInvariant : Obligations.StepKeepsInvariant := by
  unfold Obligations.StepKeepsInvariant
  exact fun s t hs h => step_keeps_inv hs h

/-- Settles O11: the session is scheduled from the key alone, whatever KBUF held before. -/
theorem initSessionDependsOnKeyOnly : Obligations.InitSessionDependsOnKeyOnly := by
  unfold Obligations.InitSessionDependsOnKeyOnly
  intro s s' klen key hlen hk
  have hsession (u v : State) :
      (initState klen key u).session = (initState klen key v).session := by
    rw [initState_session, initState_session,
      scheduledSession_kbuf u.kbuf v.kbuf klen key hlen hk]
  have hvalid (u v : State) : (initState klen key u).valid = (initState klen key v).valid := by
    rw [initState_valid, initState_valid]
  exact ⟨_, _, _, exec_init_valid hlen hk s, exec_init_valid hlen hk s', exec_init_valid hlen hk _,
    hsession _ _, hvalid _ _, hsession _ _, hvalid _ _⟩

/-- Settles O17: INIT starts the cursor at 0, and the yardstick's PRGA step adds 1 to it. -/
theorem cursorAdvancesByDataLength : Obligations.CursorAdvancesByDataLength := by
  unfold Obligations.CursorAdvancesByDataLength
  refine ⟨fun s t klen key hk h => ?_, fun s dlen data hlen hv =>
    ⟨_, exec_apply_valid hlen hv, ?_⟩⟩
  · rw [exec, execInit_eq, if_pos hk] at h
    split_ifs at h
    cases h
    exact scheduledSession_i _ _ _
  · rw [applyState_session, applyKeystream_i, BitVec.toNat_add, BitVec.toNat_ofNat,
      Nat.add_mod_mod]

/-- Settles O44: every step keeps the invariant, so every run does. -/
theorem sessionTableStaysPermutation : Obligations.SessionTableStaysPermutation := by
  unfold Obligations.SessionTableStaysPermutation
  intro s t n hs hrun hv
  exact (runSteps_keeps step_keeps_inv hs hrun).perm hv

/-- Settles O46: of the steps that write the session, APPLY leaves VALID alone, INIT sets it and
a reset clears it. -/
theorem validChangesOnlyByInitAndReset : Obligations.ValidChangesOnlyByInitAndReset := by
  unfold Obligations.ValidChangesOnlyByInitAndReset
  intro s t h
  cases step_session_cases h with
  | reset hr => exact ⟨fun _ ht => (nomatch ht), fun _ _ => hr⟩
  | init hf hd hk =>
    exact ⟨fun _ _ => ⟨_, _, _, _, _, hf, hd, hk, initState_frame _ _ _⟩, fun _ ht => (nomatch ht)⟩
  | apply _ _ _ hv => simp [hv]
  | kept _ hv => simp +contextual [hv]

/-- Settles O47: of the steps that write the session, an APPLY without data leaves it as it was. -/
theorem sessionChangesOnlyByItsCommands : Obligations.SessionChangesOnlyByItsCommands := by
  unfold Obligations.SessionChangesOnlyByItsCommands
  intro s t h hne
  cases step_session_cases h with
  | reset hr => exact .inl hr
  | init hf hd hk => exact .inr ⟨_, _, _, _, hf, hd, .inl ⟨_, _, rfl, hk⟩⟩
  | apply hf hd hlen hv =>
    refine .inr ⟨_, _, _, _, hf, hd, .inr ⟨_, _, rfl, fun hzero => hne ?_, hv⟩⟩
    rw [List.eq_nil_of_length_eq_zero (hlen.trans (by simp [hzero])), applyState_session_nil,
      tick_session]
  | kept hs => exact absurd hs hne

/-- Settles O48: no meaning and no framing transition reads a register the spec leaves unspecified
before it writes it. -/
theorem unspecifiedStateIsNeverObservable : Obligations.UnspecifiedStateIsNeverObservable := by
  unfold Obligations.UnspecifiedStateIsNeverObservable
  exact fun s t h => step_hostEquiv h

/-- Settles O49, by induction on the number of steps. -/
theorem runsCannotRevealUnspecifiedState : Obligations.RunsCannotRevealUnspecifiedState := by
  unfold Obligations.RunsCannotRevealUnspecifiedState
  exact fun s t n h => runSteps_hostEquiv h n

/-- Settles O39: VALID and the framing state are reset values the spec itself states. -/
theorem resetClearsValidAndFraming : Obligations.ResetClearsValidAndFraming := by
  unfold Obligations.ResetClearsValidAndFraming
  exact ⟨rfl, rfl, rfl⟩
end

section
/-! SUPPORT and PROOFS of the family `20_memory.md`: the byte order of the descriptor (R47), what a
step does to the two byte streams, said once (R43, R44), and the delivery of a response (R44, R68). -/

namespace Sys2Proof

/-- R47: bit b of stream byte k, where there is such a byte, is bit `8k + b` of the descriptor. -/
theorem ofBytes_getLsbD_byte {bs : List Byte} {k b : Nat} (hk : k < bs.length) (hb : b < 8)
    (hn : 8 * k + b < 64) : (Descriptor.ofBytes bs).getLsbD (8 * k + b) = bs[k].getLsbD b := by
  have hdiv : (8 * k + b) / 8 = k := by omega
  have hmod : (8 * k + b) % 8 = b := by omega
  rw [ofBytes_getLsbD bs _ hn, hdiv, hmod, List.getD_eq_getElem bs 0 hk]

end Sys2Proof

namespace Sys2Proof.Machine

/-- Everything a step that answers a next state can have done to the command stream and the response
stream: no step moves both. -/
inductive StreamsDid (s t : State) : Prop
  /-- Both streams stay as they were. -/
  | kept (hc : t.cmdIn = s.cmdIn) (ho : t.respOut = s.respOut)
  /-- The framing took the next command byte. -/
  | consumed {b} (hc : s.cmdIn = b :: t.cmdIn) (ho : t.respOut = s.respOut)
  /-- The host took a response byte. -/
  | gave {b} (hc : t.cmdIn = s.cmdIn) (ho : t.respOut = s.respOut ++ [b])

/-- The inversion of `step` for the two streams. -/
theorem step_streams_cases {s t : State} (h : step s = .next t) : StreamsDid s t := by
  cases step_next_cases h with
  | desc _ hc => exact .consumed hc rfl
  | key _ hc => exact .consumed hc rfl
  | data _ hc => exact .consumed hc rfl
  | resp => exact .gave rfl rfl
  | command _ _ ht =>
    obtain ⟨-, hc, -, ho, -⟩ := exec_next_shape ht
    exact .kept hc ho
  | reset | waited | keyDone | dataDone | illegal | respDone => exact .kept rfl rfl

end Sys2Proof.Machine

open Sys2Proof Sys2Proof.Machine

/-- Settles O2: the bits of a descriptor are those of its stream bytes, and the stream bytes of a
descriptor give it back. -/
theorem descriptorBytesAreLittleEndian : Obligations.DescriptorBytesAreLittleEndian := by
  unfold Obligations.DescriptorBytesAreLittleEndian
  exact ⟨fun bs k b hk hlen hb => ofBytes_getLsbD_byte hk hb (by omega),
    fun d => ⟨toBytes_length d, ofBytes_toBytes d⟩⟩

/-- Settles O35 by `runSteps_deliver`, an induction on the response: each of its bytes is one step, and
one more step leads from `RESP(0)` to `DESC(0)`. -/
theorem responseIsDrained : Obligations.ResponseIsDrained := by
  unfold Obligations.ResponseIsDrained
  exact fun s response hf hr hle => runSteps_deliver hf hr hle

/-- Settles O38: a step takes a command byte, gives a response byte, or leaves both streams alone. -/
theorem streamsMoveInOrder : Obligations.StreamsMoveInOrder := by
  unfold Obligations.StreamsMoveInOrder
  intro s t h
  cases step_streams_cases h with
  | kept hc ho => exact ⟨[], [], hc.symm, Nat.zero_le 1, by simpa using ho, Nat.zero_le 1⟩
  | @consumed b hc ho => exact ⟨[b], [], hc, Nat.le_refl 1, by simpa using ho, Nat.zero_le 1⟩
  | @gave b hc ho => exact ⟨[], [b], hc.symm, Nat.zero_le 1, ho, Nat.le_refl 1⟩
end

section
/-! SUPPORT and PROOFS of the family `30_encoding.md`: the bits of a descriptor and the rows of the
opcode table (R61, R75), the decoder and the encoder as inverses of each other (R60, R66), the
assembly (R72, R73), what a whole command in `EXEC` answers (R67, R69, R76, R156), and the
framing's transitions (R68). -/

namespace Sys2Proof

open Machine

/-! ### The bits of a descriptor (R61) -/

/-- R61, bit by bit. -/
theorem build_getLsbD (dlen : BitVec 32) (rsv1 : BitVec 15) (klen : BitVec 9) (rsv0 op : BitVec 4)
    (n : Nat) :
    (Descriptor.build dlen rsv1 klen rsv0 op).getLsbD n =
      if n < 4 then op.getLsbD n
      else if n < 8 then rsv0.getLsbD (n - 4)
      else if n < 17 then klen.getLsbD (n - 8)
      else if n < 32 then rsv1.getLsbD (n - 17)
      else dlen.getLsbD (n - 32) := by
  simp only [Descriptor.build, BitVec.getLsbD_cast, BitVec.getLsbD_append]
  grind

/-- The eight stream bytes, one by one. -/
theorem toBytes_eq (d : Descriptor) :
    d.toBytes = [d.extractLsb' 0 8, d.extractLsb' 8 8, d.extractLsb' 16 8, d.extractLsb' 24 8,
      d.extractLsb' 32 8, d.extractLsb' 40 8, d.extractLsb' 48 8, d.extractLsb' 56 8] := rfl

/-- Two descriptors with the same five fields are the same. -/
theorem descriptor_ext_iff {d e : Descriptor} :
    d = e ↔ d.op = e.op ∧ d.rsv0 = e.rsv0 ∧ d.klen = e.klen ∧ d.rsv1 = e.rsv1 ∧
      d.dlen = e.dlen := by
  refine ⟨fun h => by simp [h], fun ⟨hop, hrsv0, hklen, hrsv1, hdlen⟩ => ?_⟩
  rw [← build_fields d, hop, hrsv0, hklen, hrsv1, hdlen, build_fields]

/-! ### The rows of the opcode table (R75) -/

section
variable (d e : Descriptor)

@[simp] theorem op_and : (d &&& e).op = d.op &&& e.op := BitVec.extractLsb'_and
@[simp] theorem rsv0_and : (d &&& e).rsv0 = d.rsv0 &&& e.rsv0 := BitVec.extractLsb'_and
@[simp] theorem klen_and : (d &&& e).klen = d.klen &&& e.klen := BitVec.extractLsb'_and
@[simp] theorem rsv1_and : (d &&& e).rsv1 = d.rsv1 &&& e.rsv1 := BitVec.extractLsb'_and
@[simp] theorem dlen_and : (d &&& e).dlen = d.dlen &&& e.dlen := BitVec.extractLsb'_and

end

/-- What it takes to select INIT's row. -/
theorem selects_init_iff (d : Descriptor) :
    d &&& 0xFFFFFFFFFFFE00FF = 0x0000000000000001 ↔
      d.op = 0x1 ∧ d.rsv0 = 0 ∧ d.rsv1 = 0 ∧ d.dlen = 0 := by
  have hmask : (0xFFFFFFFFFFFE00FF : Descriptor) = Descriptor.build (.allOnes 32) (.allOnes 15) 0
    (.allOnes 4) (.allOnes 4) := rfl
  have hmatch : (0x0000000000000001 : Descriptor) = Descriptor.build 0 0 0 0 0x1 := rfl
  simp [descriptor_ext_iff, hmask, hmatch, -BitVec.reduceAllOnes]

/-- What it takes to select APPLY's row. -/
theorem selects_apply_iff (d : Descriptor) :
    d &&& 0x00000000FFFFFFFF = 0x0000000000000002 ↔
      d.op = 0x2 ∧ d.rsv0 = 0 ∧ d.klen = 0 ∧ d.rsv1 = 0 := by
  have hmask : (0x00000000FFFFFFFF : Descriptor) = Descriptor.build 0 (.allOnes 15) (.allOnes 9)
    (.allOnes 4) (.allOnes 4) := rfl
  have hmatch : (0x0000000000000002 : Descriptor) = Descriptor.build 0 0 0 0 0x2 := rfl
  simp [descriptor_ext_iff, hmask, hmatch, -BitVec.reduceAllOnes]

/-- What it takes to select APPLY_STATIC's row. -/
theorem selects_applyStatic_iff (d : Descriptor) :
    d &&& 0x00000000FFFE00FF = 0x0000000000000003 ↔
      d.op = 0x3 ∧ d.rsv0 = 0 ∧ d.rsv1 = 0 := by
  have hmask : (0x00000000FFFE00FF : Descriptor) = Descriptor.build 0 (.allOnes 15) 0
    (.allOnes 4) (.allOnes 4) := rfl
  have hmatch : (0x0000000000000003 : Descriptor) = Descriptor.build 0 0 0 0 0x3 := rfl
  simp [descriptor_ext_iff, hmask, hmatch, -BitVec.reduceAllOnes]

/-! ### The decoder and the encoder (R60, R66) -/

/-- The decoder answers a command exactly where the encoder's descriptor and payloads of that
command stand. -/
theorem decodeCommand_eq_ok_iff {d : Descriptor} {key data : List Byte} {i : Instr} :
    decodeCommand d key data = .ok i ↔
      d = i.descriptor ∧ key = i.keyPayload ∧ data = i.dataPayload := by
  refine ⟨fun h => ?_, fun ⟨hd, hkey, hdata⟩ => ?_⟩
  · rw [descriptor_ext_iff]
    obtain ⟨rfl, hd⟩ | ⟨rfl, hd⟩ | ⟨rfl, hd⟩ := decodeCommand_ok h <;>
      simp [Instr.descriptor, Instr.keyPayload, Instr.dataPayload, hd]
  · rw [hd, hkey, hdata, decodeCommand_descriptor]

/-- R76, by way of the command's own descriptor. -/
theorem wellFormed_iff (i : Instr) :
    i.wellFormed = true ↔ i.keyPayload.length = i.descriptor.klen.toNat ∧
      i.dataPayload.length = i.descriptor.dlen.toNat := by
  cases i <;> simp [Instr.wellFormed, Instr.descriptor, Instr.keyPayload, Instr.dataPayload]

/-- R76: a decoded command is well-formed exactly when the payloads fit the descriptor. -/
theorem decodeCommand_wellFormed_iff {d : Descriptor} {key data : List Byte} {i : Instr}
    (h : decodeCommand d key data = .ok i) :
    i.wellFormed = true ↔ key.length = d.klen.toNat ∧ data.length = d.dlen.toNat := by
  obtain ⟨rfl, rfl, rfl⟩ := decodeCommand_eq_ok_iff.mp h
  exact wellFormed_iff i

section
variable {d : Descriptor} {key data : List Byte}

theorem decodeCommand_eq_init_iff (hdata : data.length = d.dlen.toNat) :
    decodeCommand d key data = .ok (.init d.klen key) ↔
      d.op = 0x1 ∧ d.rsv0 = 0 ∧ d.rsv1 = 0 ∧ d.dlen = 0 := by
  have hnil : d.dlen = 0 → data = [] := fun h => by simpa [h] using hdata
  simpa [decodeCommand_eq_ok_iff, descriptor_ext_iff, Instr.descriptor, Instr.keyPayload,
    Instr.dataPayload] using fun _ _ _ hdlen => hnil hdlen

theorem decodeCommand_eq_apply_iff (hkey : key.length = d.klen.toNat) :
    decodeCommand d key data = .ok (.apply d.dlen data) ↔
      d.op = 0x2 ∧ d.rsv0 = 0 ∧ d.klen = 0 ∧ d.rsv1 = 0 := by
  have hnil : d.klen = 0 → key = [] := fun h => by simpa [h] using hkey
  simpa [decodeCommand_eq_ok_iff, descriptor_ext_iff, Instr.descriptor, Instr.keyPayload,
    Instr.dataPayload] using fun _ _ hklen _ => hnil hklen

theorem decodeCommand_eq_applyStatic_iff :
    decodeCommand d key data = .ok (.applyStatic d.klen d.dlen key data) ↔
      d.op = 0x3 ∧ d.rsv0 = 0 ∧ d.rsv1 = 0 := by
  simp [decodeCommand_eq_ok_iff, descriptor_ext_iff, Instr.descriptor, Instr.keyPayload,
    Instr.dataPayload]

/-- The decoder rejects what it reads as none of the three commands. -/
theorem decodeCommand_error_iff :
    (∃ e, decodeCommand d key data = .error e) ↔
      decodeCommand d key data ≠ .ok (.init d.klen key) ∧
      decodeCommand d key data ≠ .ok (.apply d.dlen data) ∧
      decodeCommand d key data ≠ .ok (.applyStatic d.klen d.dlen key data) := by
  cases h : decodeCommand d key data with
  | error e => simp
  | ok i => obtain ⟨rfl, -⟩ | ⟨rfl, -⟩ | ⟨rfl, -⟩ := decodeCommand_ok h <;> simp

/-- R65: an illegal descriptor decodes to no command, whatever payloads come with it. -/
theorem decodeCommand_of_illegal (h : IllegalDescriptor d) :
    ∃ e, decodeCommand d key data = .error e := by
  cases hd : decodeCommand d key data with
  | error e => exact ⟨e, rfl⟩
  | ok i =>
    obtain ⟨-, hd⟩ | ⟨-, hd⟩ | ⟨-, hd⟩ := decodeCommand_ok hd <;>
      simp [IllegalDescriptor, hd] at h

end

/-! ### The command at the head of a byte string (R60) -/

/-- R47: eight stream bytes are those of the descriptor they carry. -/
theorem toBytes_ofBytes {bs : List Byte} (h : bs.length = 8) :
    (Descriptor.ofBytes bs).toBytes = bs := by
  refine List.ext_getElem (by simp [h]) fun k hk hk' => ?_
  rw [List.getElem_eq_iff, toBytes_getElem _ _ (by omega), Option.some_inj]
  ext b hb
  rw [BitVec.getElem_extractLsb', ofBytes_getLsbD_byte hk' hb (by omega), BitVec.getLsbD_eq_getElem]

@[simp] theorem headDescriptor_toBytes_append (d : Descriptor) (bs : List Byte) :
    headDescriptor (d.toBytes ++ bs) = d := by
  have htake : (d.toBytes ++ bs).take Config.descBytes = d.toBytes :=
    List.take_left' (toBytes_length d)
  rw [headDescriptor, htake, ofBytes_toBytes]

theorem drop_toBytes_append (d : Descriptor) (bs : List Byte) :
    (d.toBytes ++ bs).drop Config.descBytes = bs :=
  List.drop_left' (toBytes_length d)

section
variable {d : Descriptor} {key data : List Byte} (hkey : key.length = d.klen.toNat)
  (hdata : data.length = d.dlen.toNat) (rest : List Byte)
include hkey

theorem headKey_stream : headKey (d.toBytes ++ (key ++ rest)) = key := by
  rw [headKey, headDescriptor_toBytes_append, drop_toBytes_append, List.take_left' hkey]

include hdata

theorem headData_stream : headData (d.toBytes ++ (key ++ (data ++ rest))) = data := by
  rw [headData, headDescriptor_toBytes_append, drop_toBytes_append,
    List.drop_left' hkey, List.take_left' hdata]

/-- The descriptor and the payloads a byte string is made of are read back from it. -/
theorem head_parts :
    headDescriptor (d.toBytes ++ key ++ data) = d ∧ headKey (d.toBytes ++ key ++ data) = key ∧
      headData (d.toBytes ++ key ++ data) = data := by
  have hdataEq := headData_stream hkey hdata []
  rw [List.append_nil] at hdataEq
  rw [List.append_assoc]
  exact ⟨headDescriptor_toBytes_append d _, headKey_stream hkey data, hdataEq⟩

/-- R60: a command on the stream is decoded from its descriptor and payloads, and what follows it is
left. -/
theorem decode_stream :
    decode (d.toBytes ++ (key ++ (data ++ rest))) =
      (decodeCommand d key data).map fun i => (i, rest) := by
  have hlen : (d.toBytes ++ (key ++ data)).length = d.commandLength := by
    simp [Descriptor.commandLength, Config.descBytes, hkey, hdata, Nat.add_assoc]
  have hle : d.commandLength ≤ (d.toBytes ++ (key ++ (data ++ rest))).length := by
    simp only [← hlen, List.length_append]; omega
  have hdrop : (d.toBytes ++ (key ++ (data ++ rest))).drop d.commandLength = rest := by
    rw [← List.append_assoc key, ← List.append_assoc, List.drop_left' hlen]
  rw [decode, headDescriptor_toBytes_append, if_pos hle, headKey_stream hkey,
    headData_stream hkey hdata, hdrop]
  cases decodeCommand d key data <;> rfl

end

/-- R60: a byte string with a whole command at its head is that command's descriptor, its payloads
and the rest. -/
theorem stream_parts {bs : List Byte} (h : (headDescriptor bs).commandLength ≤ bs.length) :
    bs = (headDescriptor bs).toBytes ++ headKey bs ++ headData bs ++
        bs.drop (headDescriptor bs).commandLength ∧
      (headKey bs).length = (headDescriptor bs).klen.toNat ∧
      (headData bs).length = (headDescriptor bs).dlen.toNat := by
  rw [Descriptor.commandLength, Config.descBytes] at h
  have hbytes : (headDescriptor bs).toBytes = bs.take 8 :=
    toBytes_ofBytes (List.length_take_of_le (show 8 ≤ bs.length by omega))
  have hkey : (headKey bs).length = (headDescriptor bs).klen.toNat := by
    simp [headKey, Config.descBytes]; omega
  have hdata : (headData bs).length = (headDescriptor bs).dlen.toNat := by
    simp [headData, Config.descBytes]; omega
  refine ⟨?_, hkey, hdata⟩
  rw [hbytes, headKey, headData, Descriptor.commandLength, Config.descBytes, List.append_assoc,
    List.append_assoc, ← List.drop_drop, ← List.drop_drop, List.take_append_drop,
    List.take_append_drop, List.take_append_drop]

/-- A byte string decodes to a command when it has a whole command at its head and this decodes. -/
theorem decode_eq_ok {bs rest : List Byte} {i : Instr} (h : decode bs = .ok (i, rest)) :
    (headDescriptor bs).commandLength ≤ bs.length ∧
      decodeCommand (headDescriptor bs) (headKey bs) (headData bs) = .ok i ∧
      rest = bs.drop (headDescriptor bs).commandLength := by
  unfold decode at h
  split_ifs at h with hlen
  split at h
  next j hj => cases h; exact ⟨hlen, hj, rfl⟩
  next => cases h

theorem decode_encode {i : Instr} (h : i.wellFormed = true) (rest : List Byte) :
    decode (encode i ++ rest) = .ok (i, rest) := by
  obtain ⟨hkey, hdata⟩ := payload_lengths_of_wellFormed h
  rw [encode, List.append_assoc, List.append_assoc, decode_stream hkey hdata,
    decodeCommand_descriptor]
  rfl

end Sys2Proof

namespace Sys2Proof.Machine

/-! ### The assembly (R72, R73) -/

/-- A list's length fits the `w` bits of its count field exactly when the field can say it. -/
theorem length_eq_toNat_ofNat_iff (w : Nat) (bs : List Byte) :
    bs.length = (BitVec.ofNat w bs.length).toNat ↔ bs.length < 2 ^ w := by
  rw [BitVec.toNat_ofNat, eq_comm, Nat.mod_eq_iff_lt (by positivity)]

/-- A line that spells a command gives that command's bytes, where its lists fit their counts. -/
theorem assemble_of_lineCommand {line : AsmLine} {i : Instr} (h : lineCommand line = some i) :
    assemble line = if i.wellFormed = true then some (encode i) else none := by
  cases line with
  | cmd => cases h
  | init | apply | applyStatic | keystream | keystreamStatic | rekey => simp only [assemble, h]

section
variable {line : AsmLine} {i : Instr} (h : lineCommand line = some i)
include h

theorem assemble_decodes (hwf : i.wellFormed = true) :
    ∃ bs, assemble line = some bs ∧ ∀ rest, decode (bs ++ rest) = .ok (i, rest) :=
  ⟨encode i, by rw [assemble_of_lineCommand h, if_pos hwf], decode_encode hwf⟩

theorem assemble_eq_none (hwf : ¬ i.wellFormed = true) : assemble line = none := by
  rw [assemble_of_lineCommand h, if_neg hwf]

end

/-- R72: an ASCII character of a quoted text stands for its code. -/
theorem byteTextBytes_quoted_getElem {text : String} {k : Nat} {c : Char}
    (hk : text.toList[k]? = some c) (hc : c.toNat < 128) :
    ((byteTextBytes (.quoted text))[k]?).map BitVec.toNat = some c.toNat := by
  have hmod : c.toNat % 2 ^ 8 = c.toNat := Nat.mod_eq_of_lt (by omega)
  rw [byteTextBytes, List.getElem?_map, hk, Option.map_some, Option.map_some, BitVec.toNat_ofNat,
    hmod]

/-! ### What a command answers (R67, R69, R76, R156) -/

/-- R91: INIT with a key length outside [5, 256] fails and writes nothing. -/
theorem exec_init_badKey {klen : BitVec 9} {key : List Byte} (hlen : key.length = klen.toNat)
    (hk : ¬ ValidKeyLength klen) (s : State) :
    exec (.init klen key) s = .next (finish .errKeyLength [] s) := by
  rw [exec, execInit_eq, if_pos hlen, if_neg hk]

/-- R135: APPLY_STATIC with a key length outside [5, 256] fails and writes nothing. -/
theorem exec_applyStatic_badKey {klen : BitVec 9} {dlen : BitVec 32} {key data : List Byte}
    (hlen : key.length = klen.toNat) (hdata : data.length = dlen.toNat)
    (hk : ¬ ValidKeyLength klen) (s : State) :
    exec (.applyStatic klen dlen key data) s = .next (finish .errKeyLength data s) := by
  rw [exec, execApplyStatic_eq, if_pos ⟨hlen, hdata⟩, if_neg hk]

/-- R76: a record whose payloads do not fit its counts is refused. -/
theorem exec_refused_of_not_wellFormed {i : Instr} (h : ¬ i.wellFormed = true) (s : State) :
    exec i s = .refused .payloadMismatch := by
  cases i with
  | init klen key =>
    rw [exec, execInit_eq, if_neg (by simpa [Instr.wellFormed] using h)]
  | apply dlen data =>
    rw [exec, execApply_eq, if_neg (by simpa [Instr.wellFormed] using h)]
  | applyStatic klen dlen key data =>
    rw [exec, execApplyStatic_eq, if_neg (by simpa [Instr.wellFormed] using h)]

/-- R69, R156: what a command answers has as many data bytes as the command, and if its status is
not `OK`, these are the command's own and nothing else is written. -/
theorem exec_next_failure {i : Instr} {s t : State} (h : exec i s = .next t) :
    ∃ (status : Byte) (out : List Byte), t.frame = .resp (status :: out) ∧
      out.length = i.dataPayload.length ∧
      (status ≠ 0x00 → out = i.dataPayload ∧
        t = { s with frame := .resp (status :: i.dataPayload) }) := by
  cases exec_next_cases h with
  | init => exact ⟨0x00, [], rfl, rfl, fun hne => absurd rfl hne⟩
  | apply => exact ⟨0x00, _, rfl, applyKeystream_length _ _, fun hne => absurd rfl hne⟩
  | applyStatic => exact ⟨0x00, _, rfl, applyKeystream_length _ _, fun hne => absurd rfl hne⟩
  | failed e => exact ⟨e.code, _, rfl, rfl, fun _ => ⟨rfl, rfl⟩⟩

/-! ### A step in `EXEC` (R68, R76, R154) -/

section
variable {d : Descriptor} {key data : List Byte}

theorem execIllegal_of_fits (hfit : key.length = d.klen.toNat ∧ data.length = d.dlen.toNat)
    (s : State) : execIllegal d key data s = .next (finish .errIllegalCommand data s) := by
  rw [execIllegal_eq, if_pos hfit]

theorem execIllegal_of_misfits
    (hmisfit : ¬ (key.length = d.klen.toNat ∧ data.length = d.dlen.toNat)) (s : State) :
    execIllegal d key data s = .refused .payloadMismatch := by
  rw [execIllegal_eq, if_neg hmisfit]

variable {s : State} (hf : s.frame = .exec d key data) (hr : s.resets.head? ≠ some 0)
include hf hr

/-- R76: a record whose payloads do not fit the descriptor is refused, legal or not. -/
theorem step_exec_misfits
    (hmisfit : ¬ (key.length = d.klen.toNat ∧ data.length = d.dlen.toNat)) :
    step s = .refused .payloadMismatch := by
  cases hd : decodeCommand d key data with
  | ok i =>
    rw [step_of_exec_legal hr hf hd, exec_refused_of_not_wellFormed
      (mt (decodeCommand_wellFormed_iff hd).mp hmisfit)]
  | error e => rw [step_of_exec_illegal hr hf hd, execIllegal_of_misfits hmisfit]

/-- R69, R156: a whole command is answered with a status and DLEN data bytes, and if the status is
not `OK`, these are the command's own and nothing else is written. -/
theorem step_exec_fits (hfit : key.length = d.klen.toNat ∧ data.length = d.dlen.toNat) :
    ∃ (t : State) (status : Byte) (out : List Byte), step s = .next t ∧
      t.frame = .resp (status :: out) ∧ out.length = d.dlen.toNat ∧
      (status ≠ 0x00 → out = data ∧ t = { tick s with frame := .resp (status :: data) }) := by
  cases hd : decodeCommand d key data with
  | ok i =>
    obtain ⟨-, -, hpayload⟩ := decodeCommand_eq_ok_iff.mp hd
    obtain ⟨t, ht⟩ :=
      exec_next_of_wellFormed ((decodeCommand_wellFormed_iff hd).mpr hfit) (tick s)
    obtain ⟨status, out, hresp, hout, hfail⟩ := exec_next_failure ht
    rw [← hpayload] at hout hfail
    exact ⟨t, status, out, (step_of_exec_legal hr hf hd).trans ht, hresp, hout.trans hfit.2,
      hfail⟩
  | error e =>
    exact ⟨_, 0x03, data, (step_of_exec_illegal hr hf hd).trans (execIllegal_of_fits hfit _), rfl,
      hfit.2, fun _ => ⟨rfl, rfl⟩⟩

end

/-! ### The framing's transitions (R68) -/

theorem tick_of_resets_succ {s : State} {n : Nat} {later : List Nat}
    (h : s.resets = (n + 1) :: later) : tick s = { s with resets := n :: later } := by
  rw [tick, h, countDown, Nat.add_sub_cancel]

theorem takeDescByte_of_lt {got : List Byte} (h : got.length < 7) (b : Byte) :
    takeDescByte got b = .desc (got ++ [b]) := if_pos h

theorem takeDescByte_last {got : List Byte} (h : got.length = 7) (b : Byte) :
    takeDescByte got b = .key (Descriptor.ofBytes (got ++ [b])) [] := if_neg h.not_lt

section
variable (s : State) {b : Byte} {rest : List Byte}

theorem descStep_cons (hc : s.cmdIn = b :: rest) (got : List Byte) :
    descStep got s = .next { s with cmdIn := rest, frame := takeDescByte got b } := by
  rw [descStep, hc]

theorem keyStep_cons (hc : s.cmdIn = b :: rest) {d : Descriptor} {got : List Byte}
    (hlt : got.length < d.klen.toNat) :
    keyStep d got s = .next { s with cmdIn := rest, frame := .key d (got ++ [b]) } := by
  rw [keyStep, if_pos hlt, hc]

theorem keyStep_full {d : Descriptor} {got : List Byte} (hlen : got.length = d.klen.toNat) :
    keyStep d got s = .next { s with frame := .data d got [] } :=
  if_neg hlen.not_lt

theorem dataStep_cons (hc : s.cmdIn = b :: rest) {d : Descriptor} {got : List Byte}
    (hlt : got.length < d.dlen.toNat) (key : List Byte) :
    dataStep d key got s = .next { s with cmdIn := rest, frame := .data d key (got ++ [b]) } := by
  rw [dataStep, if_pos hlt, hc]

theorem dataStep_full {d : Descriptor} {got : List Byte} (hlen : got.length = d.dlen.toNat)
    (key : List Byte) : dataStep d key got s = .next { s with frame := .exec d key got } :=
  if_neg hlen.not_lt

theorem respStep_cons {n : Nat} (ht : s.takes = n + 1) (b : Byte) (left : List Byte) :
    respStep (b :: left) s =
      .next { s with takes := n, respOut := s.respOut ++ [b], frame := .resp left } := by
  rw [respStep, ht]

end

end Sys2Proof.Machine

open Sys2Proof Sys2Proof.Machine

/-- Settles O5: the head of the stream is the command's descriptor and payloads, and these decode
to it. -/
theorem decodeEncodeRoundTrip : Obligations.DecodeEncodeRoundTrip := by
  unfold Obligations.DecodeEncodeRoundTrip
  exact fun i rest h => decode_encode h rest

/-- Settles O3, bit by bit: bytes 0 and 2 hold parts of two fields, each other byte part of one. -/
theorem descriptorFieldsInStreamBytes : Obligations.DescriptorFieldsInStreamBytes := by
  unfold Obligations.DescriptorFieldsInStreamBytes
  intro dlen rsv1 klen rsv0 op
  refine ⟨?_, op_build .., rsv0_build .., klen_build .., rsv1_build .., dlen_build ..⟩
  rw [toBytes_eq]
  simp only [List.cons.injEq, and_true]
  refine ⟨?byte0, ?byte1, ?byte2, ?byte3, ?byte4, ?byte5, ?byte6, ?byte7⟩
  all_goals
    ext i hi
    simp only [BitVec.getElem_extractLsb', build_getLsbD]
    grind

/-- Settles O4: a row and its command ask the same of the descriptor's fields. -/
theorem decodeFollowsOpcodeTable : Obligations.DecodeFollowsOpcodeTable := by
  unfold Obligations.DecodeFollowsOpcodeTable
  intro d key data hkey hdata
  have hinit := (decodeCommand_eq_init_iff (key := key) hdata).trans (selects_init_iff d).symm
  have happly := (decodeCommand_eq_apply_iff (data := data) hkey).trans (selects_apply_iff d).symm
  have hstatic := (decodeCommand_eq_applyStatic_iff (key := key) (data := data)).trans
    (selects_applyStatic_iff d).symm
  refine ⟨hinit, happly, hstatic, ?_⟩
  rw [decodeCommand_error_iff, Ne, Ne, Ne, hinit, happly, hstatic]

/-- Settles O6: the string is cut into the parts that were decoded, and these are the command's
own. -/
theorem decodedBytesAreTheEncoding : Obligations.DecodedBytesAreTheEncoding := by
  unfold Obligations.DecodedBytesAreTheEncoding
  intro bs rest i h
  obtain ⟨hlen, hdec, rfl⟩ := decode_eq_ok h
  obtain ⟨hbs, hfit⟩ := stream_parts hlen
  obtain ⟨hd, hkey, hdata⟩ := decodeCommand_eq_ok_iff.mp hdec
  refine ⟨(decodeCommand_wellFormed_iff hdec).mpr hfit, ?_⟩
  rw [encode, ← hd, ← hkey, ← hdata]
  exact hbs

/-- Settles O7: what a line spells is well-formed exactly when its lists fit their counts, and then
its bytes decode to it; a `.cmd` line's bytes are read back part by part. -/
theorem assemblyLinesSpellTheirCommands : Obligations.AssemblyLinesSpellTheirCommands := by
  unfold Obligations.AssemblyLinesSpellTheirCommands
  refine ⟨fun _ _ => ⟨rfl, rfl⟩, fun text k c hk hc => ⟨List.length_map _,
    byteTextBytes_quoted_getElem hk hc⟩, fun key data => ?core,
    fun op rsv0 klen rsv1 dlen key data => ⟨fun hkey hdata => ?fits, fun hmisfit => ?misfits⟩,
    fun _ _ => ⟨rfl, rfl, rfl, rfl, rfl, rfl⟩⟩
  case core =>
    intro keyBytes dataBytes initLine applyLine staticLine
    have hinit : initLine.wellFormed = true ↔ keyBytes.length < 2 ^ 9 :=
      beq_iff_eq.trans (length_eq_toNat_ofNat_iff 9 keyBytes)
    have happly : applyLine.wellFormed = true ↔ dataBytes.length < 2 ^ 32 :=
      beq_iff_eq.trans (length_eq_toNat_ofNat_iff 32 dataBytes)
    have hstatic : staticLine.wellFormed = true ↔
        keyBytes.length < 2 ^ 9 ∧ dataBytes.length < 2 ^ 32 :=
      Bool.and_eq_true_iff.trans (and_congr hinit happly)
    exact ⟨rfl, rfl, rfl, fun hkey => assemble_decodes rfl (hinit.mpr hkey),
      fun hdata => assemble_decodes rfl (happly.mpr hdata),
      fun hkey hdata => assemble_decodes rfl (hstatic.mpr ⟨hkey, hdata⟩),
      fun hkey => assemble_eq_none rfl (mt hinit.mp hkey.not_gt),
      fun hdata => assemble_eq_none rfl (mt happly.mp hdata.not_gt),
      fun h => assemble_eq_none rfl fun hwf => by
        obtain ⟨hkey, hdata⟩ := hstatic.mp hwf
        omega⟩
  case fits =>
    obtain ⟨hd, hkeyEq, hdataEq⟩ := head_parts (d := Descriptor.build dlen rsv1 klen rsv0 op)
      (hkey.trans (by rw [klen_build])) (hdata.trans (by rw [dlen_build]))
    refine ⟨_, if_pos ⟨hkey, hdata⟩, by simp [hkey, hdata, Nat.add_assoc], ?_⟩
    simp only [hd, op_build, rsv0_build, klen_build, rsv1_build, dlen_build, hkeyEq, hdataEq,
      and_self]
  case misfits => exact if_neg (not_and_or.mpr hmisfit)

/-- Settles O16: XOR with a zero byte gives the keystream byte itself. -/
theorem keystreamLineGivesTheKeystream : Obligations.KeystreamLineGivesTheKeystream := by
  unfold Obligations.KeystreamLineGivesTheKeystream
  intro s n hv hn
  have hlen : (List.replicate n (0 : Byte)).length = n := List.length_replicate
  refine ⟨_, _, _, rfl, exec_apply_valid ?_ hv, applyState_frame _ _,
    (applyKeystream_length _ _).trans hlen, fun k hk => ?_, ?_⟩
  · exact (length_eq_toNat_ofNat_iff 32 _).mpr (hlen.trans_lt hn)
  · rw [byteTextBytes, applyKeystream_getElem _ _ _ (hlen.symm ▸ hk), List.getElem_replicate]
    exact congrArg some BitVec.zero_xor
  · rw [applyState_session, applyKeystream_ref, byteTextBytes, hlen]

/-- Settles O28: a command that fails, legal or not, ends in `finish` with its own data. -/
theorem failedCommandsEchoAndWriteNothing : Obligations.FailedCommandsEchoAndWriteNothing := by
  unfold Obligations.FailedCommandsEchoAndWriteNothing
  exact fun s d key data hf hkey hdata hr => step_exec_fits hf hr ⟨hkey, hdata⟩

/-- Settles O30: the decoder does not look at the size of KLEN, and the meanings do. -/
theorem keyLengthIsNoEncodingError : Obligations.KeyLengthIsNoEncodingError := by
  unfold Obligations.KeyLengthIsNoEncodingError
  exact fun s klen dlen key data hkey hdata => ⟨decodeCommand_descriptor (.init klen key),
    decodeCommand_descriptor (.applyStatic klen dlen key data), fun hk =>
      ⟨exec_init_badKey hkey hk s, exec_applyStatic_badKey hkey hdata hk s⟩⟩

/-- Settles O31: each meaning checks the payloads first, and refuses on nothing else. -/
theorem onlyMismatchedRecordsAreRefused : Obligations.OnlyMismatchedRecordsAreRefused := by
  unfold Obligations.OnlyMismatchedRecordsAreRefused
  refine ⟨fun i s => ⟨fun hwf => exec_next_of_wellFormed hwf s, fun hwf =>
      exec_refused_of_not_wellFormed (by simp [hwf]) s⟩,
    fun d key data s => ⟨fun hfit => execIllegal_of_fits hfit s, fun hmisfit =>
      execIllegal_of_misfits (not_and_or.mpr hmisfit) s⟩,
    fun d key data s hf hr => ⟨fun hill => ?_, fun hfit => ?_, fun hmisfit =>
      step_exec_misfits hf hr (not_and_or.mpr hmisfit)⟩⟩
  · obtain ⟨e, he⟩ := decodeCommand_of_illegal (key := key) (data := data) hill
    exact step_of_exec_illegal hr hf he
  · obtain ⟨t, -, -, ht, -⟩ := step_exec_fits hf hr hfit
    exact ⟨t, ht⟩

/-- Settles O34 by `runSteps_receive`: eight steps for the descriptor, then one for each payload
byte and one to leave each payload. -/
theorem wholeCommandIsReceived : Obligations.WholeCommandIsReceived := by
  unfold Obligations.WholeCommandIsReceived
  exact fun s d key data rest hf hr hkey hdata hc => runSteps_receive hf hr hkey hdata hc

/-- Settles O1, by evaluating the decoder. -/
theorem specDescriptorBytesDecode : Obligations.SpecDescriptorBytesDecode := by
  unfold Obligations.SpecDescriptorBytesDecode
  decide

/-- Settles O33, transition by transition. -/
theorem framingTransitions : Obligations.FramingTransitions := by
  unfold Obligations.FramingTransitions
  refine ⟨fun s => ⟨tick_of_no_resets, fun n later => tick_of_resets_succ⟩, fun s b rest hr =>
    ⟨fun got hf hc hlt => ?_, fun got hf hc hlen => ?_,
      fun d got hf hc hlt => (step_of_key hr hf).trans (keyStep_cons (tick s) hc hlt),
      fun d got hf hlen => (step_of_key hr hf).trans (keyStep_full (tick s) hlen),
      fun d key got hf hc hlt =>
        (step_of_data hr hf).trans (dataStep_cons (tick s) hc hlt key),
      fun d key got hf hlen => (step_of_data hr hf).trans (dataStep_full (tick s) hlen key),
      fun n hf ht => (step_of_resp hr hf).trans (respStep_cons (tick s) ht b rest),
      fun hf => step_of_resp hr hf⟩⟩
  · rw [step_of_desc hr hf, descStep_cons (tick s) hc, takeDescByte_of_lt hlt]
  · rw [step_of_desc hr hf, descStep_cons (tick s) hc, takeDescByte_last hlen]
end

section
/-! SUPPORT and PROOFS of the family `40_ksa.md`: the table the KSA leaves (R94), and what INIT leaves
for a key length in and outside [5, 256] (R91 to R97). -/

namespace Sys2Proof.Machine

/-- R93: a key of valid length is scheduled into the yardstick's table, whatever KBUF held before. -/
theorem readEntry_scheduledSession_eq_refKsa (kbuf : Table) {klen : BitVec 9} {key : List Byte}
    (hlen : key.length = klen.toNat) (hk : ValidKeyLength klen) (x : Byte) :
    readEntry (scheduledSession kbuf klen key).table x = (refKsa key 256).1 x :=
  congrFun (congrArg RefState.X (scheduledSession_ref kbuf klen key hlen hk)) x

@[simp] theorem scheduledSession_j (kbuf : Table) (klen : BitVec 9) (key : List Byte) :
    (scheduledSession kbuf klen key).j = 0 := rfl

end Sys2Proof.Machine

open Sys2Proof Sys2Proof.Machine

/-- Settles O8: the identity is a permutation, and each of the 256 iterations only swaps entries. -/
theorem ksaLeavesPermutation : Obligations.KsaLeavesPermutation := by
  unfold Obligations.KsaLeavesPermutation
  exact ksa_isPermutation

/-- Settles O9: INIT leaves `initState`, whose session the KSA has scheduled from the key payload. -/
theorem initSchedulesTheKey : Obligations.InitSchedulesTheKey := by
  unfold Obligations.InitSchedulesTheKey
  intro s klen key hlen hk
  refine ⟨_, exec_init_valid hlen hk s, fun x => ?table, ?others⟩
  case table => rw [initState_session, readEntry_scheduledSession_eq_refKsa s.kbuf hlen hk]
  case others => simp

/-- Settles O10: the length check comes before any write, and its failure only makes the response. -/
theorem initRejectsKeyLength : Obligations.InitRejectsKeyLength := by
  unfold Obligations.InitRejectsKeyLength
  exact fun s klen key hlen hk => exec_init_badKey hlen hk s
end

section
/-! SUPPORT and PROOFS of the family `41_prga.md`: what one PRGA step does to the cursors, the table and
the keystream byte (R112, R113), what APPLY answers with and without a session (R110, R111, R114), and
the laws of the keystream over whole commands (R115, R117, R118, R119). -/

namespace Sys2Proof.Machine

/-! ### One PRGA step (R112, R113) -/

/-- A swap leaves every third entry alone (R11). -/
theorem readEntry_swapEntries_other (t : Table) {a b x : Byte} (ha : x ≠ a) (hb : x ≠ b) :
    readEntry (swapEntries t a b) x = readEntry t x := by
  rw [readEntry_swapEntries, refSwap, if_neg ha, if_neg hb]

section
variable (p : PermState)

theorem prgaStep_i : (prgaStep p).1.i = p.i + 1 := rfl

theorem prgaStep_j : (prgaStep p).1.j = p.j + readEntry p.table (p.i + 1) := rfl

theorem readEntry_prgaStep_i :
    readEntry (prgaStep p).1.table (prgaStep p).1.i = readEntry p.table (prgaStep p).1.j :=
  readEntry_swapEntries_left _ _ _

theorem readEntry_prgaStep_j :
    readEntry (prgaStep p).1.table (prgaStep p).1.j = readEntry p.table (prgaStep p).1.i :=
  readEntry_swapEntries_right _ _ _

theorem readEntry_prgaStep_other {x : Byte} (hi : x ≠ (prgaStep p).1.i)
    (hj : x ≠ (prgaStep p).1.j) : readEntry (prgaStep p).1.table x = readEntry p.table x :=
  readEntry_swapEntries_other _ hi hj

theorem prgaStep_byte_after_swap : (prgaStep p).2 = readEntry (prgaStep p).1.table
    (readEntry (prgaStep p).1.table (prgaStep p).1.i +
      readEntry (prgaStep p).1.table (prgaStep p).1.j) := rfl

/-- R113: the swap exchanges the two summands. -/
theorem prgaStep_sum :
    readEntry (prgaStep p).1.table (prgaStep p).1.i +
        readEntry (prgaStep p).1.table (prgaStep p).1.j =
      readEntry p.table (prgaStep p).1.i + readEntry p.table (prgaStep p).1.j := by
  rw [readEntry_prgaStep_i, readEntry_prgaStep_j, BitVec.add_comm]

/-- R113: the sum may be formed before the swap, as long as the final read comes after it. -/
theorem prgaStep_byte_of_sum {t : Byte}
    (h : readEntry p.table (prgaStep p).1.i + readEntry p.table (prgaStep p).1.j = t) :
    (prgaStep p).2 = readEntry (prgaStep p).1.table t := by
  rw [prgaStep_byte_after_swap, prgaStep_sum, h]

end

/-! ### The keystream loop (R114, R118, R119) -/

/-- R118: what the data and the response data differ by is the keystream, a function of the state
alone. -/
theorem zipWith_xor_applyKeystream (p : PermState) (data : List Byte) :
    List.zipWith (· ^^^ ·) data (applyKeystream p data).2 =
      (List.range data.length).map (refByte p.ref) := by
  refine List.ext_getElem (by simp) fun k hk _ => ?_
  have hlt : k < data.length := by simpa using hk
  have hbyte : (applyKeystream p data).2[k]'(by simpa using hlt) = data[k] ^^^ refByte p.ref k :=
    (List.getElem_eq_iff _).mpr (applyKeystream_getElem p data k hlt)
  rw [List.getElem_zipWith, hbyte, ← BitVec.xor_assoc, BitVec.xor_self, BitVec.zero_xor,
    List.getElem_map, List.getElem_range]

/-- R118: the state the loop ends in depends on the data's length alone. -/
theorem applyKeystream_state_of_length (p : PermState) {a b : List Byte}
    (h : a.length = b.length) : (applyKeystream p a).1 = (applyKeystream p b).1 :=
  permState_ext_ref <| by rw [applyKeystream_ref, applyKeystream_ref, h]

/-- R119: the loop on its own output, from the same state, gives the data back. -/
theorem applyKeystream_involutive (p : PermState) (data : List Byte) :
    (applyKeystream p (applyKeystream p data).2).2 = data := by
  induction data generalizing p with
  | nil => rfl
  | cons b bs ih =>
    simp only [applyKeystream_cons]
    rw [ih, BitVec.xor_assoc, BitVec.xor_self, BitVec.xor_zero]

/-! ### APPLY and sequences of commands -/

/-- R111: APPLY without a session fails and writes nothing. -/
theorem exec_apply_noSession {dlen : BitVec 32} {data : List Byte}
    (hlen : data.length = dlen.toNat) {s : State} (hv : s.valid = false) :
    exec (.apply dlen data) s = .next (finish .errNoSession data s) := by
  rw [exec, execApply_eq, if_pos hlen, if_neg (by simp [hv])]

theorem exec_applyCommand_valid {data : List Byte} (hlen : data.length < 2 ^ 32) {s : State}
    (hv : s.valid = true) : exec (applyCommand data) s = .next (applyState data s) :=
  exec_apply_valid ((length_eq_toNat_ofNat_iff 32 data).mpr hlen) hv

theorem runCommands_cons {s t u : State} {i : Instr} {is : List Instr} {r : List Byte}
    {rs : List (List Byte)} (hi : exec i s = .next t) (hr : pendingResponse t = some r)
    (his : runCommands t is = some (u, rs)) : runCommands s (i :: is) = some (u, r :: rs) := by
  rw [runCommands, hi]
  simp only [hr, his]

theorem runCommands_applyCommand_cons {s u : State} {data : List Byte} {is : List Instr}
    {rs : List (List Byte)} (hv : s.valid = true) (hlen : data.length < 2 ^ 32)
    (his : runCommands (applyState data s) is = some (u, rs)) :
    runCommands s (applyCommand data :: is) =
      some (u, (0x00 :: (applyKeystream s.session data).2) :: rs) :=
  runCommands_cons (exec_applyCommand_valid hlen hv) (pendingResponse_applyState data s) his

/-- R119: the responses of a fresh INIT and an APPLY after it. -/
theorem runCommands_init_apply {klen : BitVec 9} {key data : List Byte}
    (hlen : key.length = klen.toNat) (hk : ValidKeyLength klen) (hdata : data.length < 2 ^ 32)
    (s : State) :
    runCommands s [.init klen key, applyCommand data] =
      some (applyState data (initState klen key s),
        [[0x00], 0x00 :: (applyKeystream (scheduledSession s.kbuf klen key) data).2]) :=
  runCommands_cons (exec_init_valid hlen hk s) (pendingResponse_initState klen key s)
    (runCommands_applyCommand_cons (initState_valid klen key s) hdata rfl)

/-! ### A session on the identity table -/

/-- A state with a session whose table is the identity permutation, and both cursors 0. -/
def identitySession : State :=
  { State.reset with session := startCursors identityTable, valid := true }

theorem identitySession_ref : identitySession.session.ref = ⟨id, 0, 0⟩ :=
  congrArg (RefState.mk · 0 0) (funext readEntry_identityTable)

/-- Its first two keystream bytes differ. -/
theorem identitySession_refByte :
    refByte identitySession.session.ref 0 = 2 ∧ refByte identitySession.session.ref 1 = 5 := by
  rw [identitySession_ref]
  decide

/-- R119: on one continuing session the second APPLY meets later keystream bytes than the first. -/
theorem applyKeystream_twice_singleton (p : PermState) (b : Byte) :
    (applyKeystream (applyKeystream p [b]).1 (applyKeystream p [b]).2).2 =
      [b ^^^ refByte p.ref 0 ^^^ refByte p.ref 1] := by
  simp only [applyKeystream_cons, applyKeystream_nil, prgaStep_byte, prgaStep_ref, refByte_next]

end Sys2Proof.Machine

open Sys2Proof Sys2Proof.Machine

/-- Settles O12: the step is a swap at the advanced cursors, and a swap exchanges two entries. -/
theorem prgaStepFollowsItsRule : Obligations.PrgaStepFollowsItsRule := by
  unfold Obligations.PrgaStepFollowsItsRule
  exact fun p => ⟨prgaStep_i p, prgaStep_j p, readEntry_prgaStep_i p, readEntry_prgaStep_j p,
    fun x hi hj => readEntry_prgaStep_other p hi hj, prgaStep_byte_after_swap p⟩

/-- Settles O13: the byte is the swapped table's entry at the sum, so at either cursor it is the old
table's entry at the other. -/
theorem keystreamByteIsReadAfterSwap : Obligations.KeystreamByteIsReadAfterSwap := by
  unfold Obligations.KeystreamByteIsReadAfterSwap
  intro p x y t q
  exact ⟨prgaStep_sum p,
    fun hx => (prgaStep_byte_of_sum p hx).trans (readEntry_prgaStep_i p),
    fun hy => (prgaStep_byte_of_sum p hy).trans (readEntry_prgaStep_j p),
    fun hx hy => (prgaStep_byte_of_sum p rfl).trans (readEntry_prgaStep_other p hx hy)⟩

/-- Settles O14: APPLY leaves `applyState`, whose session and response the keystream loop has made. -/
theorem applyXorsTheKeystream : Obligations.ApplyXorsTheKeystream := by
  unfold Obligations.ApplyXorsTheKeystream
  exact fun s dlen data hlen hv => ⟨_, _, exec_apply_valid hlen hv, applyKeystream_length _ data,
    fun k hk => applyKeystream_getElem _ data k hk, applyKeystream_ref _ data⟩

/-- Settles O18: an APPLY that completes only swaps entries, and one that fails leaves S alone. -/
theorem applyKeepsPermutation : Obligations.ApplyKeepsPermutation := by
  unfold Obligations.ApplyKeepsPermutation
  intro s t dlen data hperm h
  cases exec_next_cases h with
  | apply => exact applyKeystream_isPermutation hperm data
  | failed => exact hperm

/-- Settles O19: the loop over A ++ B is the loop over A and, from where it ends, the loop over B. -/
theorem applyChunkingEquivalence : Obligations.ApplyChunkingEquivalence := by
  unfold Obligations.ApplyChunkingEquivalence
  intro s a b hv hlen
  have hsum : a.length + b.length < 2 ^ 32 := by rwa [List.length_append] at hlen
  have happend := applyKeystream_append s.session a b
  refine ⟨_, _, _, _, _, exec_applyCommand_valid (by omega) hv,
    exec_applyCommand_valid (by omega) hv, exec_applyCommand_valid hlen hv,
    applyState_frame a s, applyState_frame b _, ?_, applyKeystream_length _ a,
    applyKeystream_length _ b, ?_⟩
  · rw [applyState_frame, happend, applyState_session]
  · rw [applyState_session, happend, applyState_session, applyState_session]

/-- Settles O20: both the end state and the keystream are the yardstick's for the start state and the
common length. -/
theorem applyStateIgnoresData : Obligations.ApplyStateIgnoresData := by
  unfold Obligations.ApplyStateIgnoresData
  intro s dlen a b hv ha hb
  have hlen : a.length = b.length := ha.trans hb.symm
  refine ⟨_, _, _, _, exec_apply_valid ha hv, exec_apply_valid hb hv, applyState_frame a s,
    applyState_frame b s, applyKeystream_state_of_length s.session hlen, ?_⟩
  rw [zipWith_xor_applyKeystream, zipWith_xor_applyKeystream, hlen]

/-- Settles O21: two fresh sessions of one key are the same, so their keystreams cancel; a continuing
session on the identity table turns the byte 0 into 2, and that into 7. -/
theorem freshSessionsAreSymmetric : Obligations.FreshSessionsAreSymmetric := by
  unfold Obligations.FreshSessionsAreSymmetric
  constructor
  · intro s s' klen key data hlen hk hdata
    have hcipher := applyKeystream_length (scheduledSession s.kbuf klen key) data
    have hback := runCommands_init_apply hlen hk (hcipher.trans_lt hdata) s'
    rw [scheduledSession_kbuf s'.kbuf s.kbuf klen key hlen hk, applyKeystream_involutive] at hback
    exact ⟨_, _, _, runCommands_init_apply hlen hk hdata s, hcipher, hback⟩
  · obtain ⟨hfirst, hsecond⟩ := identitySession_refByte
    refine ⟨identitySession, _, [0], _, _, rfl, identityTable_isPermutation,
      runCommands_applyCommand_cons rfl (by decide)
        (runCommands_applyCommand_cons rfl (by simp) rfl), ?_⟩
    rw [applyState_session, applyKeystream_twice_singleton, hfirst, hsecond]
    decide

/-- Settles O15: VALID is checked before any PRGA step, and its failure only makes the response. -/
theorem applyNeedsSession : Obligations.ApplyNeedsSession := by
  unfold Obligations.ApplyNeedsSession
  exact fun s dlen data hlen hv => exec_apply_noSession hlen hv
end

section
/-! SUPPORT and PROOFS of the family `42_stateless.md`: what APPLY_STATIC answers for a key of valid
length and for any other (R131, R133, R135, R136), that the session plays no part in it (R132, R140),
that it undoes itself (R139), and that INIT with any split over APPLY gives the same bytes (R137). -/

namespace Sys2Proof.Machine

/-! ### APPLY_STATIC with a key of valid length (R131) -/

section
variable {klen : BitVec 9} {key : List Byte} (hlen : key.length = klen.toNat)
include hlen

theorem exec_applyStatic_valid {dlen : BitVec 32} {data : List Byte}
    (hdata : data.length = dlen.toNat) (hk : ValidKeyLength klen) (s : State) :
    exec (.applyStatic klen dlen key data) s = .next (applyStaticState klen key data s) := by
  rw [exec, execApplyStatic_eq, if_pos ⟨hlen, hdata⟩, if_pos hk]

/-- The response is made of the key and the data: KBUF is overwritten before it is read. -/
theorem applyStaticState_frame_eq_of_kbuf (hk : ValidKeyLength klen) (data : List Byte)
    (kbuf : Table) (s : State) : (applyStaticState klen key data s).frame =
      .resp (0x00 :: (applyKeystream (scheduledSession kbuf klen key) data).2) := by
  rw [applyStaticState_frame, scheduledSession_kbuf s.kbuf kbuf klen key hlen hk]

/-- R133: every data byte meets the keystream byte of the key at its own position. -/
theorem applyKeystream_scheduledSession_getElem (hk : ValidKeyLength klen) (kbuf : Table)
    (data : List Byte) (k : Nat) (h : k < data.length) :
    (applyKeystream (scheduledSession kbuf klen key) data).2[k]? =
      some (data[k] ^^^ refByte (refStart key) k) := by
  rw [applyKeystream_getElem _ data k h, scheduledSession_ref kbuf klen key hlen hk]

end

/-! ### Sequences of commands (R137) -/

/-- A command on its own. -/
theorem runCommands_singleton {s t : State} {i : Instr} {r : List Byte} (hi : exec i s = .next t)
    (hr : pendingResponse t = some r) : runCommands s [i] = some (t, [r]) :=
  runCommands_cons hi hr rfl

/-- R117 over any number of APPLY commands: their data bytes in order are those of one APPLY of the
whole data. -/
theorem runCommands_map_applyCommand {chunks : List (List Byte)} {s : State}
    (hv : s.valid = true) (hlen : chunks.flatten.length < 2 ^ 32) :
    ∃ (t : State) (outs : List (List Byte)),
      runCommands s (chunks.map applyCommand) = some (t, outs.map (0x00 :: ·)) ∧
      outs.map List.length = chunks.map List.length ∧
      outs.flatten = (applyKeystream s.session chunks.flatten).2 := by
  induction chunks generalizing s with
  | nil => exact ⟨s, [], rfl, rfl, rfl⟩
  | cons data rest ih =>
    have hsum : data.length + rest.flatten.length < 2 ^ 32 := by
      rwa [List.flatten_cons, List.length_append] at hlen
    obtain ⟨t, outs, hrun, hlens, hflat⟩ := ih (s := applyState data s) hv (by omega)
    refine ⟨t, (applyKeystream s.session data).2 :: outs,
      runCommands_applyCommand_cons hv (by omega) hrun, ?_, ?_⟩
    · rw [List.map_cons, List.map_cons, applyKeystream_length, hlens]
    · rw [List.flatten_cons, List.flatten_cons, applyKeystream_append, hflat, applyState_session]

end Sys2Proof.Machine

open Sys2Proof Sys2Proof.Machine

/-- Settles O22: the scratch context is scheduled into the yardstick's state for the key, and the loop
runs from there. -/
theorem applyStaticXorsTheKeystreamOfTheKey :
    Obligations.ApplyStaticXorsTheKeystreamOfTheKey := by
  unfold Obligations.ApplyStaticXorsTheKeystreamOfTheKey
  intro s klen dlen key data hlen hdata hk
  exact ⟨_, _, exec_applyStatic_valid hlen hdata hk s, applyStaticState_frame klen key data s,
    applyKeystream_length _ data, applyKeystream_scheduledSession_getElem hlen hk s.kbuf data,
    rfl, rfl, rfl, rfl, rfl, rfl⟩

/-- Settles O24: with a valid key the response is made of the key and the data, and with any other it
is the data under `ERR_KEY_LENGTH`. -/
theorem applyStaticIsIsolated : Obligations.ApplyStaticIsIsolated := by
  unfold Obligations.ApplyStaticIsIsolated
  intro s s' klen dlen key data hlen hdata
  by_cases hk : ValidKeyLength klen
  · exact ⟨_, _, _, exec_applyStatic_valid hlen hdata hk s, exec_applyStatic_valid hlen hdata hk s',
      applyStaticState_frame klen key data s,
      applyStaticState_frame_eq_of_kbuf hlen hk data s.kbuf s', by simp, rfl, rfl, rfl, rfl⟩
  · exact ⟨_, _, _, exec_applyStatic_badKey hlen hdata hk s,
      exec_applyStatic_badKey hlen hdata hk s', rfl, rfl, by simp [Status.code], rfl, rfl, rfl, rfl⟩

/-- Settles O25: INIT leaves the session APPLY_STATIC schedules for itself, and the loop over the
chunks one by one is the loop over their concatenation. -/
theorem statefulAndStatelessAgree : Obligations.StatefulAndStatelessAgree := by
  unfold Obligations.StatefulAndStatelessAgree
  intro s s' klen key chunks hlen hchunks
  have hdata := (length_eq_toNat_ofNat_iff 32 chunks.flatten).mpr hchunks
  constructor
  · intro hk
    obtain ⟨t, outs, hrun, hlens, hflat⟩ :=
      runCommands_map_applyCommand (initState_valid klen key s) hchunks
    have hstatic : pendingResponse (applyStaticState klen key chunks.flatten s') =
        some (0x00 :: outs.flatten) := by
      rw [hflat, initState_session]
      exact pendingResponse_of_frame
        (applyStaticState_frame_eq_of_kbuf hlen hk chunks.flatten s.kbuf s')
    exact ⟨t, _, outs,
      runCommands_cons (exec_init_valid hlen hk s) (pendingResponse_initState klen key s) hrun,
      hlens, runCommands_singleton (exec_applyStatic_valid hlen hdata hk s') hstatic⟩
  · intro hk
    exact ⟨_, _,
      runCommands_singleton (exec_init_badKey hlen hk s) (pendingResponse_finish _ _ s),
      runCommands_singleton (exec_applyStatic_badKey hlen hdata hk s')
        (pendingResponse_finish _ _ s')⟩

/-- Settles O26: both commands run the loop from the state the key is scheduled into, and the loop on
its own output gives the data back. -/
theorem staticReapplicationIsIdentity : Obligations.StaticReapplicationIsIdentity := by
  unfold Obligations.StaticReapplicationIsIdentity
  intro s s' klen dlen key data hlen hdata hk
  have hcipher := applyKeystream_length (scheduledSession s.kbuf klen key) data
  have hback := applyStaticState_frame_eq_of_kbuf hlen hk
    (applyKeystream (scheduledSession s.kbuf klen key) data).2 s.kbuf s'
  rw [applyKeystream_involutive] at hback
  exact ⟨_, _, _, exec_applyStatic_valid hlen hdata hk s, applyStaticState_frame klen key data s,
    hcipher, exec_applyStatic_valid hlen (hcipher.trans hdata) hk s', hback⟩

/-- Settles O23: the length check comes before any write, and its failure only makes the response. -/
theorem applyStaticRejectsKeyLength : Obligations.ApplyStaticRejectsKeyLength := by
  unfold Obligations.ApplyStaticRejectsKeyLength
  exact fun s klen dlen key data hlen hdata hk => exec_applyStatic_badKey hlen hdata hk s
end

section
/-! SUPPORT and PROOFS of the family `60_exceptions.md`: the status of a whole command (R154, R155), that no
step is refused from a state that meets the invariant (R170), and that a wait holds the whole state
(R168). -/

namespace Sys2Proof.Machine

/-! ### What `EXEC` reports (R154, R155) -/

section
variable {d : Descriptor} {key data : List Byte}

/-- R65: the fields of a descriptor that is not illegal, by its opcode. -/
theorem legal_cases (h : ¬ IllegalDescriptor d) :
    (d.op = 0x1 ∧ d.rsv0 = 0 ∧ d.rsv1 = 0 ∧ d.dlen = 0) ∨
    (d.op = 0x2 ∧ d.rsv0 = 0 ∧ d.klen = 0 ∧ d.rsv1 = 0) ∨
    (d.op = 0x3 ∧ d.rsv0 = 0 ∧ d.rsv1 = 0) := by
  simp only [IllegalDescriptor, not_or, not_and, not_not, not_le] at h
  obtain ⟨⟨hzero, hlt⟩, hrsv0, hrsv1, hdlen, hklen⟩ := h
  obtain hop | hop | hop : d.op = 0x1 ∨ d.op = 0x2 ∨ d.op = 0x3 := by bv_omega
  · exact .inl ⟨hop, hrsv0, hrsv1, hdlen hop⟩
  · exact .inr (.inl ⟨hop, hrsv0, hklen hop, hrsv1⟩)
  · exact .inr (.inr ⟨hop, hrsv0, hrsv1⟩)

variable (hfit : key.length = d.klen.toNat ∧ data.length = d.dlen.toNat) {s : State}
  (hf : s.frame = .exec d key data) (hr : s.resets.head? ≠ some 0)
include hfit hf hr

/-- R154: a whole command with an illegal descriptor only makes its response. -/
theorem step_exec_illegal (h : IllegalDescriptor d) :
    step s = .next (finish .errIllegalCommand data (tick s)) := by
  obtain ⟨e, he⟩ := decodeCommand_of_illegal (key := key) (data := data) h
  rw [step_of_exec_illegal hr hf he, execIllegal_of_fits hfit]

/-- R63: a whole command with a legal descriptor runs the meaning its opcode selects. -/
theorem step_exec_legal (h : ¬ IllegalDescriptor d) :
    (d.op = 0x1 ∧ step s = exec (.init d.klen key) (tick s)) ∨
    (d.op = 0x2 ∧ step s = exec (.apply d.dlen data) (tick s)) ∨
    (d.op = 0x3 ∧ step s = exec (.applyStatic d.klen d.dlen key data) (tick s)) := by
  obtain ⟨hkey, hdata⟩ := hfit
  obtain hd | hd | hd := legal_cases h
  · exact .inl ⟨hd.1, step_of_exec_legal hr hf ((decodeCommand_eq_init_iff hdata).mpr hd)⟩
  · exact .inr (.inl ⟨hd.1, step_of_exec_legal hr hf ((decodeCommand_eq_apply_iff hkey).mpr hd)⟩)
  · exact .inr (.inr ⟨hd.1, step_of_exec_legal hr hf (decodeCommand_eq_applyStatic_iff.mpr hd)⟩)

end

/-! ### Waiting (R168, R191) -/

section
variable {s : State}

theorem waitFor_of_reset_to_come (h : s.resets ≠ []) (f : Fault) :
    waitFor f s = .next s := if_neg h

theorem descStep_nil (hc : s.cmdIn = []) (got : List Byte) :
    descStep got s = waitFor (if got = [] then .runEnded else .stuckInDesc) s := by
  rw [descStep, hc]

theorem keyStep_nil (hc : s.cmdIn = []) {d : Descriptor} {got : List Byte}
    (hlt : got.length < d.klen.toNat) : keyStep d got s = waitFor .stuckInKey s := by
  rw [keyStep, if_pos hlt, hc]

theorem dataStep_nil (hc : s.cmdIn = []) {d : Descriptor} {got : List Byte}
    (hlt : got.length < d.dlen.toNat) (key : List Byte) :
    dataStep d key got s = waitFor .stuckInData s := by
  rw [dataStep, if_pos hlt, hc]

theorem respStep_zero (ht : s.takes = 0) (b : Byte) (left : List Byte) :
    respStep (b :: left) s = waitFor .stuckInResp s := by
  rw [respStep, ht]

end

/-! ### The framing refuses nothing outside `EXEC` (R170) -/

section
variable (s : State) (r : Refusal)

theorem waitFor_ne_refused (f : Fault) : waitFor f s ≠ .refused r := by
  unfold waitFor
  split_ifs <;> simp

theorem descStep_ne_refused (got : List Byte) : descStep got s ≠ .refused r := by
  cases hc : s.cmdIn with
  | nil => rw [descStep_nil hc]; exact waitFor_ne_refused s r _
  | cons b rest => rw [descStep_cons s hc]; simp

theorem keyStep_ne_refused (d : Descriptor) (got : List Byte) : keyStep d got s ≠ .refused r := by
  by_cases hlt : got.length < d.klen.toNat
  · cases hc : s.cmdIn with
    | nil => rw [keyStep_nil hc hlt]; exact waitFor_ne_refused s r _
    | cons b rest => rw [keyStep_cons s hc hlt]; simp
  · rw [keyStep, if_neg hlt]; simp

theorem dataStep_ne_refused (d : Descriptor) (key got : List Byte) :
    dataStep d key got s ≠ .refused r := by
  by_cases hlt : got.length < d.dlen.toNat
  · cases hc : s.cmdIn with
    | nil => rw [dataStep_nil hc hlt]; exact waitFor_ne_refused s r _
    | cons b rest => rw [dataStep_cons s hc hlt]; simp
  · rw [dataStep, if_neg hlt]; simp

theorem respStep_ne_refused (left : List Byte) : respStep left s ≠ .refused r := by
  cases left with
  | nil => simp [respStep]
  | cons b left =>
    cases ht : s.takes with
    | zero => rw [respStep_zero ht]; exact waitFor_ne_refused s r _
    | succ n => rw [respStep_cons s ht]; simp

end

end Sys2Proof.Machine

open Sys2Proof Sys2Proof.Machine

/-- Settles O27: an illegal descriptor is reported before any operand is looked at, and a legal one runs
the one meaning of its opcode, which makes at most one check of its own. -/
theorem statusFollowsPriority : Obligations.StatusFollowsPriority := by
  unfold Obligations.StatusFollowsPriority
  intro s d key data hf hkey hdata hr
  by_cases hill : IllegalDescriptor d
  · exact ⟨_, data, step_exec_illegal ⟨hkey, hdata⟩ hf hr hill, by rw [if_pos hill]; rfl⟩
  rw [if_neg hill]
  obtain ⟨hop, hstep⟩ | ⟨hop, hstep⟩ | ⟨hop, hstep⟩ :=
    step_exec_legal ⟨hkey, hdata⟩ hf hr hill <;> rw [hstep]
  · by_cases hk : ValidKeyLength d.klen
    · exact ⟨_, [], exec_init_valid hkey hk _, by simp [hop, hk]⟩
    · exact ⟨_, [], exec_init_badKey hkey hk _, by simp [hop, hk, Status.code]⟩
  · cases hv : s.valid with
    | true => exact ⟨_, (applyKeystream s.session data).2, exec_apply_valid hdata hv, by simp [hop]⟩
    | false => exact ⟨_, data, exec_apply_noSession hdata hv, by simp [hop, Status.code]⟩
  · by_cases hk : ValidKeyLength d.klen
    · exact ⟨_, (applyKeystream (scheduledSession s.kbuf d.klen key) data).2,
        exec_applyStatic_valid hkey hdata hk _, by simp [hop, hk]⟩
    · exact ⟨_, data, exec_applyStatic_badKey hkey hdata hk _, by simp [hop, hk, Status.code]⟩

/-- Settles O45: only `EXEC` can refuse, and there the invariant says that the payloads fit. -/
theorem soundStatesAreNeverRefused : Obligations.SoundStatesAreNeverRefused := by
  unfold Obligations.SoundStatesAreNeverRefused
  intro s r hs
  by_cases hr : s.resets.head? = some 0
  · rw [step_of_reset_due hr]; simp
  cases hf : s.frame with
  | desc got => rw [step_of_desc hr hf]; exact descStep_ne_refused _ r got
  | key d got => rw [step_of_key hr hf]; exact keyStep_ne_refused _ r d got
  | data d key got => rw [step_of_data hr hf]; exact dataStep_ne_refused _ r d key got
  | exec d key data =>
    have hfit := hs.frame
    rw [hf, sound_exec] at hfit
    obtain ⟨t, -, -, ht, -⟩ := step_exec_fits hf hr hfit
    rw [ht]; simp
  | resp left => rw [step_of_resp hr hf]; exact respStep_ne_refused _ r left

/-- Settles O29: `finish` only makes the response, and `tick` changes nothing where no reset is to
come. -/
theorem illegalCommandIsReported : Obligations.IllegalCommandIsReported := by
  unfold Obligations.IllegalCommandIsReported
  intro s d key data hf hkey hdata hr hill
  rw [step_exec_illegal ⟨hkey, hdata⟩ hf (no_reset_due hr) hill, tick_of_no_resets hr]
  rfl

/-- Settles O51: each of the four waits is a `waitFor` in the state after `tick`, in which the reset is
still to come. -/
theorem waitingHoldsTheWholeState : Obligations.WaitingHoldsTheWholeState := by
  unfold Obligations.WaitingHoldsTheWholeState
  intro s n later hresets hwait
  have hr : s.resets.head? ≠ some 0 := by simp [hresets]
  have hheld (f : Fault) : waitFor f (tick s) = .next { s with resets := n :: later } := by
    rw [tick_of_resets_succ hresets]
    exact waitFor_of_reset_to_come (List.cons_ne_nil n later) f
  obtain ⟨got, hf, hc⟩ | ⟨d, got, hf, hlt, hc⟩ | ⟨d, key, got, hf, hlt, hc⟩ | ⟨b, left, hf, ht⟩ :=
    hwait
  · rw [step_of_desc hr hf, descStep_nil (s := tick s) hc, hheld]
  · rw [step_of_key hr hf, keyStep_nil (s := tick s) hc hlt, hheld]
  · rw [step_of_data hr hf, dataStep_nil (s := tick s) hc hlt, hheld]
  · rw [step_of_resp hr hf, respStep_zero (s := tick s) ht, hheld]
end

section
/-! SUPPORT and PROOFS of the family `70_reset_and_hazards.md`: when each framing transition waits for a
host that has no move left (R191, R193), what a reset leaves of the past (R180, R182, R183), and the
observation of a run (R193). -/

namespace Sys2Proof.Machine

/-! ### The steps that stop (R191, R193) -/

@[simp] theorem countDown_eq_nil_iff (resets : List Nat) : countDown resets = [] ↔ resets = [] := by
  cases resets <;> simp [countDown]

section
variable (s : State) (f : Fault)

theorem waitFor_eq_fault_iff (g : Fault) : waitFor g s = .fault f ↔ s.resets = [] ∧ f = g := by
  unfold waitFor
  split_ifs with h <;> simp [h, eq_comm]

theorem descStep_eq_fault_iff (got : List Byte) : descStep got s = .fault f ↔
    s.resets = [] ∧ s.cmdIn = [] ∧ f = if got = [] then .runEnded else .stuckInDesc := by
  cases hc : s.cmdIn with
  | nil => simp [descStep_nil hc, waitFor_eq_fault_iff]
  | cons b rest => simp [descStep_cons s hc]

theorem keyStep_eq_fault_iff (d : Descriptor) (got : List Byte) : keyStep d got s = .fault f ↔
    s.resets = [] ∧ got.length < d.klen.toNat ∧ s.cmdIn = [] ∧ f = .stuckInKey := by
  by_cases hlt : got.length < d.klen.toNat
  · cases hc : s.cmdIn with
    | nil => simp [keyStep_nil hc hlt, waitFor_eq_fault_iff, hlt]
    | cons b rest => simp [keyStep_cons s hc hlt]
  · simp [keyStep, hlt]

theorem dataStep_eq_fault_iff (d : Descriptor) (key got : List Byte) :
    dataStep d key got s = .fault f ↔
      s.resets = [] ∧ got.length < d.dlen.toNat ∧ s.cmdIn = [] ∧ f = .stuckInData := by
  by_cases hlt : got.length < d.dlen.toNat
  · cases hc : s.cmdIn with
    | nil => simp [dataStep_nil hc hlt, waitFor_eq_fault_iff, hlt]
    | cons b rest => simp [dataStep_cons s hc hlt]
  · simp [dataStep, hlt]

theorem respStep_eq_fault_iff (left : List Byte) : respStep left s = .fault f ↔
    s.resets = [] ∧ left ≠ [] ∧ s.takes = 0 ∧ f = .stuckInResp := by
  cases left with
  | nil => simp [respStep]
  | cons b left =>
    cases ht : s.takes with
    | zero => simp [respStep_zero ht, waitFor_eq_fault_iff]
    | succ n => simp [respStep_cons s ht]

theorem execIllegal_ne_fault (d : Descriptor) (key data : List Byte) :
    execIllegal d key data s ≠ .fault f := by
  rw [execIllegal_eq]
  split_ifs <;> simp

variable {s}

/-- R170: a whole command runs, or its record is refused, and never waits. -/
theorem step_exec_ne_fault (hr : s.resets.head? ≠ some 0) {d : Descriptor}
    {key data : List Byte} (hf : s.frame = .exec d key data) : step s ≠ .fault f := by
  cases hd : decodeCommand d key data with
  | ok i => rw [step_of_exec_legal hr hf hd]; exact exec_ne_fault i _ f
  | error e => rw [step_of_exec_illegal hr hf hd]; exact execIllegal_ne_fault _ f d key data

end

/-! ### Reset (R182, R183) -/

/-- R183: after a reset only the host's side is left, so nothing else before it can be told apart. -/
theorem resetEngine_hostEquiv {s t : State} (hresets : s.resets = t.resets)
    (hcmdIn : s.cmdIn = t.cmdIn) (htakes : s.takes = t.takes) (hrespOut : s.respOut = t.respOut) :
    HostEquiv (resetEngine s) (resetEngine t) :=
  ⟨rfl, fun _ => rfl, rfl, hcmdIn, htakes, hrespOut, congrArg List.tail hresets⟩

/-! ### The observation of a run (R193) -/

/-- R193 observes nothing that R36 leaves unspecified. -/
theorem HostEquiv.observation {s t : State} (h : HostEquiv s t) : observation s = observation t := by
  unfold Machine.observation
  rw [← h.respOut, ← h.valid]
  split_ifs with hv
  · rw [h.session hv]
  · rfl

theorem OutcomeEquiv.exists_next {u : State} {o : Host.Outcome State Fault Refusal}
    (h : OutcomeEquiv (.next u) o) : ∃ v, o = .next v ∧ HostEquiv u v := by
  cases o with
  | next v => exact ⟨v, rfl, h⟩
  | fault _ => exact h.elim
  | refused _ => exact h.elim

end Sys2Proof.Machine

open Sys2Proof Sys2Proof.Machine

/-- Settles O37: a reset is a step and `EXEC` never waits, and each other framing state waits for a host
with no move left exactly where its own transition does. -/
theorem stuckExactlyWhenTheHostIsDone : Obligations.StuckExactlyWhenTheHostIsDone := by
  unfold Obligations.StuckExactlyWhenTheHostIsDone
  intro s f
  by_cases hr : s.resets.head? = some 0
  · have hne : s.resets ≠ [] := fun h => by simp [h] at hr
    simp [step_of_reset_due hr, hne]
  cases hf : s.frame with
  | desc got =>
    rw [step_of_desc hr hf, descStep_eq_fault_iff]
    by_cases hgot : got = [] <;> simp [hgot]
  | key d got => rw [step_of_key hr hf, keyStep_eq_fault_iff]; simp
  | data d key got => rw [step_of_data hr hf, dataStep_eq_fault_iff]; simp
  | exec d key data => simp [step_exec_ne_fault f hr hf]
  | resp left => rw [step_of_resp hr hf, respStep_eq_fault_iff]; cases left <;> simp

/-- Settles O41: the step is the reset in both pasts, and a reset keeps the host's side only. -/
theorem resetForgetsThePast : Obligations.ResetForgetsThePast := by
  unfold Obligations.ResetForgetsThePast
  intro s t hr hresets hcmdIn htakes hrespOut
  rw [step_of_reset_due hr, step_of_reset_due (hresets ▸ hr)]
  exact resetEngine_hostEquiv hresets hcmdIn htakes hrespOut

/-- Settles O50: runs from equivalent states end in equivalent states, and these have one observation. -/
theorem observationDependsOnTheHostsViewOnly :
    Obligations.ObservationDependsOnTheHostsViewOnly := by
  unfold Obligations.ObservationDependsOnTheHostsViewOnly
  intro s t u n h hrun
  have hruns : OutcomeEquiv (.next u) (runSteps n t) := hrun ▸ runSteps_hostEquiv h n
  obtain ⟨v, hv, huv⟩ := hruns.exists_next
  exact ⟨v, hv, huv.observation⟩

/-- Settles O40: the step is the reset, whatever the framing state. -/
theorem resetAbandonsTheCommand : Obligations.ResetAbandonsTheCommand := by
  unfold Obligations.ResetAbandonsTheCommand
  intro s later hresets
  have hr : s.resets.head? = some 0 := by simp [hresets]
  exact ⟨_, step_of_reset_due hr, rfl, rfl, rfl, rfl, rfl, congrArg List.tail hresets⟩

/-- Settles O42: the invariant asks for a permutation only while there is a session, and the framing
has stored nothing. -/
theorem resetMeetsInvariant : Obligations.ResetMeetsInvariant := by
  unfold Obligations.ResetMeetsInvariant
  exact ⟨fun hv => (nomatch hv), (sound_desc []).mpr (Nat.zero_le 7)⟩
end
